-- ==== Sys2Proof/Word.lean ====
section
/-! DEFINITION. Word.lean: the widths of the engine's values (00_scope.md R2, R8; 40_update.md R57).
Every value is unsigned; bit 0 is the least significant bit. -/

namespace Sys2Proof

/-- A state, or register value: an unsigned 32-bit integer (R57). -/
abbrev Word := BitVec 32

/-- A byte: an unsigned 8-bit integer (R57). -/
abbrev Byte := BitVec 8

/-- A chunk: an ordered, possibly empty sequence of bytes of any length (R57). -/
abbrev Chunk := List Byte

/-- A command word: `op` in bits 34 to 32, `data` in bits 31 to 0 (30_encoding.md R44). -/
abbrev CommandWord := BitVec 35

end Sys2Proof
end

