-- ==== Sys2Proof/Config.lean ====
section
/-! DEFINITION. Config.lean: the OPEN parameters of 00_scope.md R7 (92_eei_decisions.md D16, D26).
No rule's result depends on one, so no meaning takes a `Config`: it serves to say which timings an
implementation of a given form may show (Machine/Ports.lean) and how many instances a chip has
(Machine/Chip.lean). The fixed constants of R2 are not configuration (10_state.md R13); they stand in
Machine/Crc.lean. -/

namespace Sys2Proof

/-- The form of the datapath (42_datapath_forms.md R81, R82). -/
inductive Datapath where
  | comb
  | pipe
deriving DecidableEq, Repr

/-- What one implementation fixes: `DATAPATH`, `LAT(op)` and `N_INST` (R7). -/
structure Config where
  datapath : Datapath
  /-- `LAT(op)`, in clock cycles: finite for every command (R115), being a natural number. -/
  lat : BitVec 3 → Nat
  /-- `N_INST`: any natural number of instances (R100). -/
  instances : Nat

/-- `COMB` means `LAT(op) = 1` for all eight commands (R81, R115); in `PIPE`, `LAT(op) >= 1` (R82). -/
def Config.wellFormed (c : Config) : Prop :=
  match c.datapath with
  | .comb => ∀ op, c.lat op = 1
  | .pipe => ∀ op, 1 ≤ c.lat op

end Sys2Proof
end

