-- ==== Sys2Proof/Syntax.lean ====
section
/-! DEFINITION. Syntax.lean: the command set, version 1 (00_scope.md R3, 30_encoding.md R47), one
constructor per row of spec/opcode_table.json. A constructor carries exactly the bits of `data` its
format reads (R45); two words that differ only in ignored bits are the same command (R48), hence the
same `Instr`. Bytes are listed in the order they are absorbed (R46, R52). -/

namespace Sys2Proof

inductive Instr where
  /-- op 0, format Z: absorb the empty chunk (R68). -/
  | upd0
  /-- op 1, format B: absorb one byte (R69). -/
  | upd1 (b0 : Byte)
  /-- op 2, format B: absorb two bytes (R70). -/
  | upd2 (b0 b1 : Byte)
  /-- op 3, format B: absorb three bytes (R71). -/
  | upd3 (b0 b1 b2 : Byte)
  /-- op 4, format B: absorb four bytes (R72). -/
  | upd4 (b0 b1 b2 b3 : Byte)
  /-- op 5, format Z: start an item (R74). -/
  | init
  /-- op 6, format W: set the state to a given value (R75). -/
  | load (v : Word)
  /-- op 7, format Z: return the state (R76). -/
  | read
deriving DecidableEq, Repr

end Sys2Proof
end

