-- ==== Sys2Proof/WellFormed.lean ====
section
/-! DEFINITION. WellFormed.lean: what is checked before a number becomes a command. The engine itself
checks nothing: there is no state outside 32 bits and no byte outside 8, "so no range check exists
anywhere" (40_update.md R57), and every `Instr` is legal (30_encoding.md R48, 41_state_transfer.md
R75). The checks here are on numbers the host has not yet put on wires (60_exceptions.md R91: a value
outside 0 to 255 cannot be put in a lane). -/

namespace Sys2Proof

/-- Every command is well formed: its operands have the widths of their wires (R48, R57). -/
def Instr.wellFormed : Instr → Bool
  | .upd0 => true
  | .upd1 _ => true
  | .upd2 _ _ => true
  | .upd3 _ _ _ => true
  | .upd4 _ _ _ _ => true
  | .init => true
  | .load _ => true
  | .read => true

/-- A number that 35 wires can carry (R44). -/
def commandFits (n : Nat) : Bool := decide (n < 2 ^ 35)

/-- A number that can be put in a lane (R57, R91). -/
def byteFits (n : Nat) : Bool := decide (n < 2 ^ 8)

/-- A number that is a state (R57, R75). -/
def wordFits (n : Nat) : Bool := decide (n < 2 ^ 32)

/-- Bytes that one update command can carry: at most four (R7 `LANES`, R47), each fitting a lane. -/
def lanesFit (ns : List Nat) : Bool := decide (ns.length ≤ 4) && ns.all byteFits

end Sys2Proof
end

