-- ==== Sys2Proof/Decode.lean ====
section
/-! DEFINITION. Decode.lean: from command words to commands and back (30_encoding.md R44 to R49, R51,
R55; spec/opcode_table.json). Decoding is total on command words: none is illegal, reserved or a
hint (R48, R49). Only a NUMBER that 35 wires cannot carry is rejected, by name. A command word is not
made of bytes (20_memory.md R33), so there is no decoder from bytes. -/

namespace Sys2Proof

/-- The field `op`, `cmd[34:32]` (R44). -/
def opOf (w : CommandWord) : BitVec 3 := w.extractLsb' 32 3

/-- The field `data`, `cmd[31:0]` (R44). -/
def dataOf (w : CommandWord) : Word := w.extractLsb' 0 32

/-- `cmd = cmd_op ++ cmd_data` (R44). -/
def commandWord (op : BitVec 3) (data : Word) : CommandWord := op ++ data

/-- `lane(k) = data[8k+7:8k]`, k = 0 to 3 (R46). -/
def lane (data : Word) (k : Nat) : Byte := data.extractLsb' (8 * k) 8

/-- The command a word stands for: `op` alone selects it, by the binary column of R47. -/
def decode (w : CommandWord) : Instr :=
  match (opOf w).getLsbD 2, (opOf w).getLsbD 1, (opOf w).getLsbD 0 with
  | false, false, false => .upd0
  | false, false, true => .upd1 (lane (dataOf w) 0)
  | false, true, false => .upd2 (lane (dataOf w) 0) (lane (dataOf w) 1)
  | false, true, true => .upd3 (lane (dataOf w) 0) (lane (dataOf w) 1) (lane (dataOf w) 2)
  | true, false, false =>
    .upd4 (lane (dataOf w) 0) (lane (dataOf w) 1) (lane (dataOf w) 2) (lane (dataOf w) 3)
  | true, false, true => .init
  | true, true, false => .load (dataOf w)
  | true, true, true => .read

/-- Why a number is not a command word. -/
inductive DecodeReject where
  /-- The number needs more than the 35 wires of the command port (R44). -/
  | widerThanACommandWord
deriving DecidableEq, Repr

/-- The command a number stands for, if it is a command word at all. -/
def decodeNumber (n : Nat) : Except DecodeReject Instr :=
  if commandFits n then .ok (decode (BitVec.ofNat 35 n)) else .error .widerThanACommandWord

/-- The instruction read from a word numbered as spec/opcode_table.json numbers it; bits from `nbits`
up are 0. A word of the table has 35 bits, so a number with a bit above bit 34 is none. -/
def decodeTableWord (nbits w : Nat) : Option Instr :=
  match decodeNumber (w % 2 ^ nbits) with
  | .ok i => some i
  | .error _ => none

/-- The value of `op` that selects a command (R47). -/
def Instr.opcode : Instr → BitVec 3
  | .upd0 => 0#3
  | .upd1 _ => 1#3
  | .upd2 _ _ => 2#3
  | .upd3 _ _ _ => 3#3
  | .upd4 _ _ _ _ => 4#3
  | .init => 5#3
  | .load _ => 6#3
  | .read => 7#3

/-- A byte in lane k, the other lanes 0: `b << 8k` (R46, R52). -/
def inLane (b : Byte) (k : Nat) : Word := b.setWidth 32 <<< (8 * k)

/-- The field `data` an assembler writes: the first byte listed in lane 0, ignored bits 0 (R52). -/
def Instr.dataField : Instr → Word
  | .upd0 => 0#32
  | .upd1 b0 => inLane b0 0
  | .upd2 b0 b1 => inLane b0 0 ||| inLane b1 1
  | .upd3 b0 b1 b2 => inLane b0 0 ||| inLane b1 1 ||| inLane b2 2
  | .upd4 b0 b1 b2 b3 => inLane b0 0 ||| inLane b1 1 ||| inLane b2 2 ||| inLane b3 3
  | .init => 0#32
  | .load v => v
  | .read => 0#32

/-- The canonical command word of a command (R47, R52). -/
def encode (i : Instr) : CommandWord := commandWord i.opcode i.dataField

/-- The bits of `data` a value of `op` makes the engine read (R45, both tables). -/
def usedBits (op : BitVec 3) : Word :=
  match op.getLsbD 2, op.getLsbD 1, op.getLsbD 0 with
  | false, false, false => 0x00000000#32
  | false, false, true => 0x000000FF#32
  | false, true, false => 0x0000FFFF#32
  | false, true, true => 0x00FFFFFF#32
  | true, false, false => 0xFFFFFFFF#32
  | true, false, true => 0x00000000#32
  | true, true, false => 0xFFFFFFFF#32
  | true, true, true => 0x00000000#32

/-- The spelling of a word in which every ignored bit is 0 (R48). -/
def canonical (w : CommandWord) : CommandWord :=
  commandWord (opOf w) (dataOf w &&& usedBits (opOf w))

end Sys2Proof
end

