-- ==== Sys2Proof/Machine/Crc.lean ====
section
/-! DEFINITION. Machine/Crc.lean: the four pure functions of 40_update.md R58 to R61 and their
constants (00_scope.md R2). They are the definition; every other formulation (Machine/Forms.lean,
Machine/Remainder.lean) loses to them (R66). -/

namespace Sys2Proof.Machine

/-- `POLYREF`, the feedback constant: the polynomial in reflected form (R2). -/
def polyRef : Word := 0x82F63B78#32

/-- `POLYCANON`, the same polynomial in canonical form; no command uses it (R2, R87). -/
def polyCanon : Word := 0x1EDC6F41#32

/-- The pre-invert mask (R2). -/
def preInvert : Word := 0xFFFFFFFF#32

/-- The post-invert mask (R2). -/
def postInvert : Word := 0xFFFFFFFF#32

/-- One shift of the raw register; bit 0 is tested before the shift (R58). -/
def bitstep (r : Word) : Word :=
  if r.getLsbD 0 then (r >>> 1) ^^^ polyRef else r >>> 1

/-- `zext_32(b)` (R9, R46). -/
def zext32 (b : Byte) : Word := b.setWidth 32

/-- Absorb one byte into the raw register: one exclusive OR, then exactly eight shifts (R59). -/
def bytestep (r : Word) (b : Byte) : Word :=
  let t0 := r ^^^ zext32 b
  let t1 := bitstep t0
  let t2 := bitstep t1
  let t3 := bitstep t2
  let t4 := bitstep t3
  let t5 := bitstep t4
  let t6 := bitstep t5
  let t7 := bitstep t6
  bitstep t7

/-- Pre-invert, the bytes in chunk order, post-invert: on every call (R60). -/
def update (s : Word) (c : Chunk) : Word :=
  c.foldl bytestep (s ^^^ preInvert) ^^^ postInvert

/-- The checksum of a chunk taken as a whole message (R61). -/
def checksum (c : Chunk) : Word := update 0x00000000#32 c

end Sys2Proof.Machine
end

