-- ==== Sys2Proof/Machine/State.lean ====
section
/-! DEFINITION. Machine/State.lean: the engine's architectural state, its response port and what surrounds
it, its (empty) faults and refusals, and the state after reset. -/

namespace Sys2Proof.Machine

/-- One rising edge of `clk`: what the host drives on the input wires (20_memory.md R28), and the two
timing choices the spec leaves to the engine (R29, 42_datapath_forms.md R82, 70_reset_and_hazards.md
R115). A DESIGN CHOICE, log entry 2: the choices are data, so a statement over all edges holds for
every `DATAPATH` and every `LAT(op)`. -/
structure Edge where
  rst : Bool
  cmdValid : Bool
  cmdOp : BitVec 3
  cmdData : Word
  rspReady : Bool
  /-- The engine is willing to accept at this edge; it may hold `cmd_ready` at 0 (R29). -/
  ready : Bool
  /-- For a `PIPE` implementation (Machine/Pipe.lean) alone, which may execute a command later than it
  accepts it: it executes its oldest unexecuted command at this edge (R82). The engine's own step does
  not read it. -/
  advance : Bool
deriving DecidableEq, Repr

/-- The ARCHITECTURAL state of one engine instance: exactly one 32-bit register, a structure with the
single field `CRC` (10_state.md R12). It is all a command can read or write; it has no field for a
command in flight or for any other hidden state (R24). -/
structure Engine where
  /-- `CRC`, the post-inverted checksum state (R15, R17). -/
  crc : Word
deriving DecidableEq, Repr

/-- What a step acts on: the engine of R12, its response port, the outputs it has given and the inputs
still to come. It has NO field for a command in flight or a partial result (R24): a command executes at
the edge that accepts it. A `PIPE` implementation, which holds commands in flight, is a state of its own
(`Pipe`, Machine/Pipe.lean; log entry 20). `delivered` and `edges` are the model's own, because the host's
`step` takes no input and gives no output (log entry 1). -/
structure State extends Engine where
  /-- Responses produced and not yet delivered, oldest first: what the response port offers
  (20_memory.md R30, 70_reset_and_hazards.md R105, R106). -/
  responses : List Word
  /-- The response sequence: the words delivered so far, oldest first (R14, R30). -/
  delivered : List Word
  /-- The rising edges of `clk` to come, next first (R28, R31). -/
  edges : List Edge
deriving DecidableEq, Repr

/-- The complete table of exception causes is empty: no command can fail, in any state (60_exceptions.md
R90). No constructor, so nothing raises one. -/
inductive Fault where
deriving DecidableEq, Repr

/-- Why a command has no meaning. -/
inductive Refusal where
  /-- Raised by an arm of `exec` that has no meaning yet: by none, since every command has one. Safe. -/
  | notModelled (mnemonic : String)
deriving DecidableEq, Repr

/-- `RAW = ~CRC`, a view of `CRC` and not a second register (R17). -/
def State.raw (s : State) : Word := ~~~s.crc

/-- The engine right after reset: `CRC = 0`, no response waiting (R25, R104, R105). No
output has been given and no input is to come (log entries 1 and 8). -/
def State.reset : State where
  crc := 0x00000000#32
  responses := []
  delivered := []
  edges := []

end Sys2Proof.Machine
end

