-- ==== Sys2Proof/Machine/Flags.lean ====
section
/-! DEFINITION. Machine/Flags.lean: the engine has NO flag: no carry, zero, busy or error bit that a
command can read or a response carries (10_state.md R21). What stands here are the engine's output
wires, which are flow control and not flags: no command's result depends on them (R21; 20_memory.md
R28 to R30). -/

namespace Sys2Proof.Machine

/-- `rsp_valid`: the engine offers a response (R28, R30). -/
def State.rspValid (s : State) : Bool := !s.responses.isEmpty

/-- `rsp_data`: the offered word; the spec gives the wire no value while `rsp_valid = 0` (R30; log
entry 18). -/
def State.rspData (s : State) : Option Word := s.responses.head?

/-- The responses that still wait once the host has taken the oldest, if it takes one at this edge (R30). -/
def State.stillWaiting (s : State) (e : Edge) : List Word :=
  match e.rspReady with
  | true => s.responses.tail
  | false => s.responses

/-- `cmd_ready` at an edge: 1 if the engine is willing (R29; log entry 2) and no response stays, since a
command behind a response the host does not take could not execute (R38, R43; log entries 5 and 7). It
does not look at the offered word. -/
def State.cmdReady (s : State) (e : Edge) : Bool := e.ready && (s.stillWaiting e).isEmpty

end Sys2Proof.Machine
end

