-- ==== Sys2Proof/Machine/Operands.lean ====
section
/-! DEFINITION. Machine/Operands.lean: the operand forms (30_encoding.md R45, R46). There is no register
operand, no addressing mode and no immediate to extend or scale; the only operands are byte lanes and
one 32-bit value. -/

namespace Sys2Proof.Machine

/-- The three uses of `data` (R45). -/
inductive Format where
  /-- No operand. -/
  | z
  /-- Byte lanes. -/
  | b
  /-- One 32-bit value. -/
  | w
deriving DecidableEq, Repr

/-- The format of a command, the `format` column of R47. -/
def formatOf : Instr → Format
  | .upd0 => .z
  | .upd1 _ => .b
  | .upd2 _ _ => .b
  | .upd3 _ _ _ => .b
  | .upd4 _ _ _ _ => .b
  | .init => .z
  | .load _ => .w
  | .read => .z

/-- The chunk an update command carries, lane 0 first; the others carry none (R46). -/
def chunkOf : Instr → Chunk
  | .upd0 => []
  | .upd1 b0 => [b0]
  | .upd2 b0 b1 => [b0, b1]
  | .upd3 b0 b1 b2 => [b0, b1, b2]
  | .upd4 b0 b1 b2 b3 => [b0, b1, b2, b3]
  | .init => []
  | .load _ => []
  | .read => []

/-- Whether a command is one of the update commands `UPD0` to `UPD4` (40_update.md section 6). -/
def isUpdate : Instr → Bool
  | .upd0 => true
  | .upd1 _ => true
  | .upd2 _ _ => true
  | .upd3 _ _ _ => true
  | .upd4 _ _ _ _ => true
  | .init => false
  | .load _ => false
  | .read => false

end Sys2Proof.Machine
end

