-- ==== Sys2Proof/Machine/Ops.lean ====
section
/-! DEFINITION. Machine/Ops.lean: the shared operations on the register and on the two ports. There is no
exception to take and none to return from (60_exceptions.md R90, R94, R95); the one event that
interrupts the engine is reset, `resetEngine`. -/

namespace Sys2Proof.Machine

/-- `CRC <- v` (00_scope.md R10). -/
def State.setCrc (s : State) (v : Word) : State := { s with crc := v }

/-- `CRC <- update(CRC, c)` (40_update.md section 6). -/
def State.absorb (s : State) (c : Chunk) : State := s.setCrc (update s.crc c)

/-- `respond(v)`: append `v` to the response stream (R10, 20_memory.md R30). -/
def State.respond (s : State) (v : Word) : State := { s with responses := s.responses ++ [v] }

/-- The effect of a rising edge with `rst = 1`: `CRC <- 0`, and every response produced and not delivered is
discarded (70_reset_and_hazards.md R104, R106). Words already delivered stay delivered (log entry 15). -/
def State.resetEngine (s : State) : State := { s with crc := 0x00000000#32, responses := [] }

/-- The command word on the port at an edge, `cmd_op ++ cmd_data` (20_memory.md R29). -/
def Edge.command (e : Edge) : CommandWord := commandWord e.cmdOp e.cmdData

/-- Whether a command is accepted at an edge: `rst = 0`, `cmd_valid = 1` and `cmd_ready = 1` (R29). -/
def State.accepts (s : State) (e : Edge) : Bool := !e.rst && e.cmdValid && s.cmdReady e

/-- Delivery: `rsp_valid = 1` and `rsp_ready = 1` hand the oldest response to the host (R30). Used only
at edges with `rst = 0` (R31). -/
def State.deliver (s : State) (e : Edge) : State :=
  match e.rspReady, s.responses with
  | true, v :: vs => { s with responses := vs, delivered := s.delivered ++ [v] }
  | true, [] => s
  | false, _ => s

/-- The engine at power-up, before its first reset. No source describes it (10_state.md R26,
60_exceptions.md R103, 70_reset_and_hazards.md R108, 93_implementation_defined.md U6, U10), so what `CRC`
holds AND what the response port holds are arguments, which a statement must leave arbitrary; that nothing
has been delivered is the model's choice, of a field of its own (log entry 10). -/
def State.powerUp (draw : Word) (responses : List Word) (edges : List Edge) : State where
  crc := draw
  responses := responses
  delivered := []
  edges := edges

end Sys2Proof.Machine
end

