-- ==== Sys2Proof/Machine/Transfer.lean ====
section
/-! DEFINITION. Machine/Transfer.lean: the meanings of `INIT`, `LOAD` and `READ` (41_state_transfer.md R73
to R76). They move a value into or out of `CRC`; none applies an inversion (R73). -/

namespace Sys2Proof.Machine

/-- R74: start an item, `CRC <- 0`. -/
def execInit (s : State) : Host.Outcome State Fault Refusal :=
  .next (s.setCrc 0x00000000#32)

/-- R75: `CRC <- cmd.data`; every value is accepted. -/
def execLoad (v : Word) (s : State) : Host.Outcome State Fault Refusal :=
  .next (s.setCrc v)

/-- R76: `respond(CRC)`; `CRC` is not written. -/
def execRead (s : State) : Host.Outcome State Fault Refusal :=
  .next (s.respond s.crc)

end Sys2Proof.Machine
end

