-- ==== Sys2Proof/Machine/Update.lean ====
section
/-! DEFINITION. Machine/Update.lean: the meanings of the update commands `UPD0` to `UPD4`, each
`CRC <- update(CRC, chunk)` with the chunk made of its lanes, lane 0 first (40_update.md R68 to R72). No
flags, no exceptions; each is atomic (20_memory.md R35). -/

namespace Sys2Proof.Machine

/-- R68: absorb the empty chunk. -/
def execUpd0 (s : State) : Host.Outcome State Fault Refusal :=
  .next (s.absorb [])

/-- R69: absorb one byte. -/
def execUpd1 (b0 : Byte) (s : State) : Host.Outcome State Fault Refusal :=
  .next (s.absorb [b0])

/-- R70: absorb two bytes. -/
def execUpd2 (b0 b1 : Byte) (s : State) : Host.Outcome State Fault Refusal :=
  .next (s.absorb [b0, b1])

/-- R71: absorb three bytes. -/
def execUpd3 (b0 b1 b2 : Byte) (s : State) : Host.Outcome State Fault Refusal :=
  .next (s.absorb [b0, b1, b2])

/-- R72: absorb four bytes. -/
def execUpd4 (b0 b1 b2 b3 : Byte) (s : State) : Host.Outcome State Fault Refusal :=
  .next (s.absorb [b0, b1, b2, b3])

end Sys2Proof.Machine
end

