-- ==== Sys2Proof/Machine/Dispatch.lean ====
section
/-! DEFINITION. Machine/Dispatch.lean: one arm per command of 30_encoding.md R47. -/

namespace Sys2Proof.Machine

def exec (i : Instr) (s : State) : Host.Outcome State Fault Refusal :=
  match i with
  | .upd0 => Sys2Proof.Machine.execUpd0 s
  | .upd1 b0 => Sys2Proof.Machine.execUpd1 b0 s
  | .upd2 b0 b1 => Sys2Proof.Machine.execUpd2 b0 b1 s
  | .upd3 b0 b1 b2 => Sys2Proof.Machine.execUpd3 b0 b1 b2 s
  | .upd4 b0 b1 b2 b3 => Sys2Proof.Machine.execUpd4 b0 b1 b2 b3 s
  | .init => Sys2Proof.Machine.execInit s
  | .load v => Sys2Proof.Machine.execLoad v s
  | .read => Sys2Proof.Machine.execRead s

end Sys2Proof.Machine
end

