-- ==== Sys2Proof/Machine/Ports.lean ====
section
/-! DEFINITION. Machine/Ports.lean: the edges of `clk` as the host and the engine make them (20_memory.md
R28 to R31, R43; 42_datapath_forms.md R81, R82), and how a word is placed for the next step. -/

namespace Sys2Proof.Machine

/-- The edges still to come, replaced. -/
def State.withEdges (s : State) (edges : List Edge) : State := { s with edges := edges }

/-- An edge with `rst = 1` and nothing offered; what the other wires carry does not matter (R31). -/
def Edge.reset : Edge where
  rst := true
  cmdValid := false
  cmdOp := 0#3
  cmdData := 0#32
  rspReady := false
  ready := true
  advance := false

/-- An edge at which the host offers nothing and takes a waiting response, and the engine is willing. -/
def Edge.execute : Edge where
  rst := false
  cmdValid := false
  cmdOp := 0#3
  cmdData := 0#32
  rspReady := true
  ready := true
  advance := true

/-- An edge at which the host offers `w` and takes a waiting response, and the engine accepts: what a `COMB`
engine does with a host that never waits (R81). -/
def Edge.offer (w : CommandWord) : Edge :=
  { Edge.execute with cmdValid := true, cmdOp := opOf w, cmdData := dataOf w }

/-- The 35-bit word a table number stands for; bits from `nbits` up are 0. -/
def tableWord (nbits w : Nat) : CommandWord := BitVec.ofNat 35 (w % 2 ^ nbits)

/-- The host's duty between one edge and the next: a word offered and not accepted is held, until a
reset (R29, 70_reset_and_hazards.md R106). The step does not rely on it: it accepts the word sampled at
the accepting edge. -/
def holdsOffer (e next : Edge) : Bool :=
  if !e.rst && e.cmdValid && !e.ready && !next.rst then
    next.cmdValid && next.cmdOp == e.cmdOp && next.cmdData == e.cmdData
  else true

/-- The host's duty over a sequence of edges (R29). -/
def hostHolds : List Edge → Bool
  | [] => true
  | [_] => true
  | e :: next :: rest => holdsOffer e next && hostHolds (next :: rest)

/-- Whether an edge shows an acceptance on the wires, `ready` being the wire `cmd_ready` (R29). -/
def Edge.accepts (e : Edge) : Bool := !e.rst && e.cmdValid && e.ready

/-- The edge as the wires show it: `cmd_ready` as the engine drives it (R29). -/
def State.shown (s : State) (e : Edge) : Edge := { e with ready := s.cmdReady e }

/-- The command sequence that edges show on the wires: the words accepted, in the order of their edges
(R29). -/
def acceptedWords (edges : List Edge) : List CommandWord :=
  (edges.filter Edge.accepts).map Edge.command

/-- No edge is a reset. -/
def resetFree (edges : List Edge) : Bool := edges.all fun e => !e.rst

/-- The timings a datapath may show at an edge (R81, R82). `COMB`: the engine is willing at every edge, a
reset edge among them, unless a response is waiting for the host; at an edge at which the waiting response
leaves, `cmd_ready` may be either (60_exceptions.md R93; log entry 7). `PIPE`: any. -/
def Edge.conforms (d : Datapath) (s : State) (e : Edge) : Bool :=
  match d with
  | .pipe => true
  | .comb => !s.responses.isEmpty || e.ready

/-- The end of a run: the host issues no further command, every accepted command has executed, every
response has been delivered (70_reset_and_hazards.md R114). Edges at which nothing is offered may still
come. R114 does not say whether a command offered only at a reset edge, or behind a later reset, is a
further command of this run or belongs to a new one (R106 speaks of "a command of the new run" and of "a
run that contains no reset after its first"): the model counts every offer at every edge to come, resets
or not, a DESIGN CHOICE (log entry 21). -/
def State.finished (s : State) : Bool := (s.edges.all fun e => !e.cmdValid) && s.responses.isEmpty

end Sys2Proof.Machine
end

