-- ==== Sys2Proof/Machine/Step.lean ====
section
/-! DEFINITION. Machine/Step.lean: one step is one rising edge of `clk` (20_memory.md R31). -/

namespace Sys2Proof.Machine

/-- At an edge with `rst = 1` only the reset happens (R31, 60_exceptions.md R93). At any other edge a response
the host takes is delivered, and a command that is accepted executes whole, at that edge, on the `CRC` the
command before it left (10_state.md R24, 20_memory.md R38; log entry 6). With no edge to come nothing
happens: the engine keeps its state (60_exceptions.md R103; log entry 3). -/
def step (s : State) : Host.Outcome State Fault Refusal :=
  match s.edges with
  | [] => .next s
  | e :: later =>
    match e.rst with
    | true => .next (s.withEdges later).resetEngine
    | false =>
      match s.accepts e with
      | true => exec (decode e.command) ((s.withEdges later).deliver e)
      | false => .next ((s.withEdges later).deliver e)

/-- `s` with the word `w` offered at the very next edge, at which a waiting response is taken and the engine
is willing, so that the next step accepts and executes it (log entry 8). -/
def State.withFetchWord (s : State) (nbits w : Nat) : State :=
  s.withEdges (Edge.offer (tableWord nbits w) :: s.edges)

end Sys2Proof.Machine
end

