-- ==== Sys2Proof/Machine/Transaction.lean ====
section
/-! DEFINITION. Machine/Transaction.lean: the transaction level, the shape
`step : CRC value -> command -> (CRC value, optional response)` of 00_scope.md R11, written on its own
from the command rules, without ports or time. Any datapath is bit-identical to it (42_datapath_forms.md
R80). -/

namespace Sys2Proof.Machine

/-- One command on one `CRC` value (R68 to R72, R74 to R76). -/
def transact (crc : Word) : Instr → Word × Option Word
  | .upd0 => (update crc [], none)
  | .upd1 b0 => (update crc [b0], none)
  | .upd2 b0 b1 => (update crc [b0, b1], none)
  | .upd3 b0 b1 b2 => (update crc [b0, b1, b2], none)
  | .upd4 b0 b1 b2 b3 => (update crc [b0, b1, b2, b3], none)
  | .init => (0x00000000#32, none)
  | .load v => (v, none)
  | .read => (crc, some crc)

/-- One command on the architectural state: the model's step in the form of 00_scope.md R11 and 10_state.md
R12, total, with no ports and no time. -/
def Engine.step (g : Engine) (i : Instr) : Engine × Option Word :=
  ({ crc := (transact g.crc i).1 }, (transact g.crc i).2)

/-- The commands of a sequence in order, each on the value its predecessor left: the last value and the
responses in order (20_memory.md R38). -/
def transactAll (crc : Word) : List Instr → Word × List Word
  | [] => (crc, [])
  | i :: later =>
    ((transactAll (transact crc i).1 later).1,
      (transact crc i).2.toList ++ (transactAll (transact crc i).1 later).2)

end Sys2Proof.Machine
end

