-- ==== Sys2Proof/Machine/Pseudo.lean ====
section
/-! DEFINITION. Machine/Pseudo.lean: the pseudo-instructions of 30_encoding.md R53 and the document's two
functions as command sequences (R54). -/

namespace Sys2Proof.Machine

/-- `NOP` is `UPD0`. -/
def nop : List Instr := [.upd0]

/-- `BYTES`: the next four bytes in one `UPD4` as long as there are four, then one `UPDr` with the last
`r` bytes; nothing for no byte. -/
def bytesCommands : Chunk → List Instr
  | [] => []
  | [b0] => [.upd1 b0]
  | [b0, b1] => [.upd2 b0 b1]
  | [b0, b1, b2] => [.upd3 b0 b1 b2]
  | b0 :: b1 :: b2 :: b3 :: rest => .upd4 b0 b1 b2 b3 :: bytesCommands rest

/-- `STR`: `BYTES` of the ASCII codes; a character that is not ASCII has none. -/
def asciiCode (c : Char) : Option Byte :=
  if c.toNat < 128 then some (BitVec.ofNat 8 c.toNat) else none

/-- `CHECKSUM`: `INIT`, `BYTES`, `READ`. -/
def checksumCommands (c : Chunk) : List Instr := .init :: (bytesCommands c ++ [.read])

/-- `SAVE` is `READ`. -/
def save : List Instr := [.read]

/-- `RESTORE v` is `LOAD v`. -/
def restore (v : Word) : List Instr := [.load v]

/-- The document's `update(s, c)` as a command sequence: `LOAD s`, `BYTES c`, `READ` (R54). -/
def updateCommands (s : Word) (c : Chunk) : List Instr := .load s :: (bytesCommands c ++ [.read])

/-- The edges at which a host that never waits offers a command sequence to an engine that never does,
and one more at which it takes the last response. -/
def offerAll (is : List Instr) : List Edge :=
  is.map (fun i => Edge.offer (encode i)) ++ [Edge.execute]

end Sys2Proof.Machine
end

