-- ==== Sys2Proof/Machine/Assembler.lean ====
section
/-! DEFINITION. Machine/Assembler.lean: the textual notation of 30_encoding.md R44, R50, R52 and R53: one
line of text to command words, and a command to its canonical line. Text is a list of characters. No
rule of the engine depends on it (92_eei_decisions.md D23; log entry 14). -/

namespace Sys2Proof.Machine

/-- What stands on a line, but for blanks and the comment. -/
inductive Token where
  /-- A mnemonic, or a number with its `0x`. -/
  | bare (cs : List Char)
  /-- One character in single quotes. -/
  | quoted (c : Char)
  /-- A text in double quotes. -/
  | text (cs : List Char)
deriving DecidableEq, Repr

/-- Where the reader of a line stands; characters already read are held last first. -/
inductive LexMode where
  | between
  | inBare (acc : List Char)
  | quoteOpen
  | quoteClose (c : Char)
  | inText (acc : List Char)
deriving DecidableEq, Repr

/-- The single quote, the double quote, the semicolon. -/
def singleQuote : Char := Char.ofNat 0x27
def doubleQuote : Char := Char.ofNat 0x22
def semicolon : Char := Char.ofNat 0x3B
def space : Char := Char.ofNat 0x20

/-- The tokens of a line; `;` outside quotes starts a comment (R52). Where R52 is silent the model chooses
(log entry 14): a blank is the space alone; a token in quotes ends at its closing quote, so that no blank
is needed before the next operand; a quote inside a bare token is a character of it; a quote left open
makes the line no line of the notation. -/
def lex : LexMode → List Char → Option (List Token)
  | .between, [] => some []
  | .inBare acc, [] => some [.bare acc.reverse]
  | .quoteOpen, [] => none
  | .quoteClose _, [] => none
  | .inText _, [] => none
  | .between, c :: cs =>
    if c = semicolon then some []
    else if c = space then lex .between cs
    else if c = singleQuote then lex .quoteOpen cs
    else if c = doubleQuote then lex (.inText []) cs
    else lex (.inBare [c]) cs
  | .inBare acc, c :: cs =>
    if c = semicolon then some [.bare acc.reverse]
    else if c = space then (lex .between cs).map fun ts => .bare acc.reverse :: ts
    else lex (.inBare (c :: acc)) cs
  | .quoteOpen, c :: cs => lex (.quoteClose c) cs
  | .quoteClose q, c :: cs =>
    if c = singleQuote then (lex .between cs).map fun ts => .quoted q :: ts else none
  | .inText acc, c :: cs =>
    if c = doubleQuote then (lex .between cs).map fun ts => .text acc.reverse :: ts
    else lex (.inText (c :: acc)) cs

/-- The sixteen hexadecimal digits, in order. -/
def hexDigits : List Char :=
  ['0', '1', '2', '3', '4', '5', '6', '7'] ++ ['8', '9', 'A', 'B', 'C', 'D', 'E', 'F']

/-- The value of a hexadecimal digit. -/
def hexValue (c : Char) : Option Nat :=
  if hexDigits.idxOf c < 16 then some (hexDigits.idxOf c) else none

/-- The value of a row of hexadecimal digits behind the value `acc`, the most significant first. -/
def hexNumber (acc : Nat) : List Char → Option Nat
  | [] => some acc
  | c :: cs =>
    match hexValue c with
    | some d => hexNumber (16 * acc + d) cs
    | none => none

/-- A number of exactly `n` hexadecimal digits with `0x` before them (R8, R44, R52). -/
def readHex (n : Nat) : List Char → Option Nat
  | '0' :: 'x' :: ds => if ds.length = n then hexNumber 0 ds else none
  | _ => none

/-- A byte operand: two digits, or one ASCII character in single quotes (R52). -/
def byteOperand : Token → Option Byte
  | .bare cs => (readHex 2 cs).map (BitVec.ofNat 8)
  | .quoted c => asciiCode c
  | .text _ => none

/-- A value operand: eight digits (R52). -/
def valueOperand : Token → Option Word
  | .bare cs => (readHex 8 cs).map (BitVec.ofNat 32)
  | .quoted _ => none
  | .text _ => none

/-- A raw command word: nine digits, of which 35 bits hold (R44). -/
def rawOperand : Token → Option CommandWord
  | .bare cs =>
    match readHex 9 cs with
    | some n => if commandFits n then some (BitVec.ofNat 35 n) else none
    | none => none
  | .quoted _ => none
  | .text _ => none

/-- The update command that carries exactly these bytes: there is one for up to four (R47). -/
def updateOf : Chunk → Option Instr
  | [] => some .upd0
  | [b0] => some (.upd1 b0)
  | [b0, b1] => some (.upd2 b0 b1)
  | [b0, b1, b2] => some (.upd3 b0 b1 b2)
  | [b0, b1, b2, b3] => some (.upd4 b0 b1 b2 b3)
  | _ :: _ :: _ :: _ :: _ :: _ => none

/-- `UPDn` with exactly `n` byte operands. -/
def assembleUpdate (n : Nat) (operands : List Token) : Option (List Instr) :=
  if operands.length = n then
    match (operands.mapM byteOperand).bind updateOf with
    | some i => some [i]
    | none => none
  else none

/-- A mnemonic with no operand. -/
def assembleBare (is : List Instr) : List Token → Option (List Instr)
  | [] => some is
  | _ :: _ => none

/-- A mnemonic with one value. -/
def assembleValue (f : Word → List Instr) : List Token → Option (List Instr)
  | [t] => (valueOperand t).map f
  | [] => none
  | _ :: _ :: _ => none

/-- `STR "text"`. -/
def assembleText : List Token → Option (List Instr)
  | [.text cs] => (cs.mapM asciiCode).map bytesCommands
  | _ => none

/-- The commands of a line that is not of the raw form (R52, R53). -/
def assembleMnemonic (m : List Char) (operands : List Token) : Option (List Instr) :=
  if m = ['U', 'P', 'D', '0'] then assembleUpdate 0 operands
  else if m = ['U', 'P', 'D', '1'] then assembleUpdate 1 operands
  else if m = ['U', 'P', 'D', '2'] then assembleUpdate 2 operands
  else if m = ['U', 'P', 'D', '3'] then assembleUpdate 3 operands
  else if m = ['U', 'P', 'D', '4'] then assembleUpdate 4 operands
  else if m = ['I', 'N', 'I', 'T'] then assembleBare [.init] operands
  else if m = ['L', 'O', 'A', 'D'] then assembleValue (fun v => [.load v]) operands
  else if m = ['R', 'E', 'A', 'D'] then assembleBare [.read] operands
  else if m = ['N', 'O', 'P'] then assembleBare nop operands
  else if m = ['B', 'Y', 'T', 'E', 'S'] then (operands.mapM byteOperand).map bytesCommands
  else if m = ['S', 'T', 'R'] then assembleText operands
  else if m = ['C', 'H', 'E', 'C', 'K', 'S', 'U', 'M'] then
    (operands.mapM byteOperand).map checksumCommands
  else if m = ['S', 'A', 'V', 'E'] then assembleBare save operands
  else if m = ['R', 'E', 'S', 'T', 'O', 'R', 'E'] then assembleValue restore operands
  else none

/-- The command words of one line; none if it is not of the notation. -/
def assemble (line : List Char) : Option (List CommandWord) :=
  match lex .between line with
  | none => none
  | some [] => some []
  | some (.bare m :: operands) =>
    if m = ['.', 'c', 'm', 'd'] then
      match operands with
      | [t] => (rawOperand t).map fun w => [w]
      | _ => none
    else (assembleMnemonic m operands).map (List.map encode)
  | some (.quoted _ :: _) => none
  | some (.text _ :: _) => none

/-- The digit of a value below 16. -/
def hexDigit (d : Nat) : Char := hexDigits.getD d '0'

/-- The last `n` hexadecimal digits of a number, the most significant first. -/
def hexText : Nat → Nat → List Char
  | 0, _ => []
  | n + 1, v => hexText n (v / 16) ++ [hexDigit (v % 16)]

/-- A value as this spec writes it: `0x` and `n` digits (R8). -/
def withMark (n v : Nat) : List Char := '0' :: 'x' :: hexText n v

/-- A response value as this spec writes it: `0x` and eight digits (R50). -/
def responseText (v : Word) : List Char := withMark 8 v.toNat

/-- The operands of a line, a blank before each. -/
def operandText (bs : Chunk) : List Char := bs.flatMap fun b => space :: withMark 2 b.toNat

/-- The canonical line of a command (R52). -/
def render : Instr → List Char
  | .upd0 => ['U', 'P', 'D', '0']
  | .upd1 b0 => ['U', 'P', 'D', '1'] ++ operandText [b0]
  | .upd2 b0 b1 => ['U', 'P', 'D', '2'] ++ operandText [b0, b1]
  | .upd3 b0 b1 b2 => ['U', 'P', 'D', '3'] ++ operandText [b0, b1, b2]
  | .upd4 b0 b1 b2 b3 => ['U', 'P', 'D', '4'] ++ operandText [b0, b1, b2, b3]
  | .init => ['I', 'N', 'I', 'T']
  | .load v => ['L', 'O', 'A', 'D', space] ++ withMark 8 v.toNat
  | .read => ['R', 'E', 'A', 'D']

/-- The raw form of a command word: `.cmd` and nine digits (R44, R52). -/
def renderRaw (w : CommandWord) : List Char :=
  ['.', 'c', 'm', 'd', space] ++ withMark 9 w.toNat

end Sys2Proof.Machine
end

