-- ==== Sys2Proof/Machine/Chip.lean ====
section
/-! DEFINITION. Machine/Chip.lean: `N_INST` instances, the product of independent copies of the
one-instance model (60_exceptions.md R100). They share nothing, and no order relates their edges (log
entry 16). -/

namespace Sys2Proof.Machine

/-- The instances of a chip. -/
abbrev Chip := List State

/-- A chip right after reset: every instance comes out of reset with `CRC = 0` (R100). -/
def Chip.reset (cfg : Config) : Chip := List.replicate cfg.instances State.reset

/-- One edge of instance `k`; a chip has no instance beyond its own. -/
def Chip.stepInstance (c : Chip) (k : Nat) : Host.Outcome Chip Fault Refusal :=
  match getElem? c k with
  | none => .next c
  | some s =>
    match step s with
    | .next t => .next (c.set k t)
    | .fault r => .fault r
    | .refused r => .refused r

/-- Edges of instances in any order, `ks` naming whose edge comes next; it stops at a fault or a refusal. -/
def Chip.run (c : Chip) : List Nat → Host.Outcome Chip Fault Refusal
  | [] => .next c
  | k :: ks =>
    match c.stepInstance k with
    | .next d => Chip.run d ks
    | .fault r => .fault r
    | .refused r => .refused r

end Sys2Proof.Machine
end

