-- ==== Sys2Proof/Machine/Pipe.lean ====
section
/-! DEFINITION. Machine/Pipe.lean: a `PIPE` implementation (42_datapath_forms.md R82), which holds accepted
commands in flight and may execute them later. It is not the model's state (10_state.md R24) but an
implementation of it, written out because only here is there something in flight for a reset to discard
(70_reset_and_hazards.md R106), and so that R80 and R82 can be stated: nothing about it is visible at the
transaction level (log entry 20). It executes a command by the engine's own `exec`. -/

namespace Sys2Proof.Machine

/-- A `PIPE` implementation: the engine with the commands in flight. What it computes ahead of their
execution (R86) is not kept, since no command can observe it (R24). -/
structure Pipe extends State where
  /-- Commands accepted and not yet executed, oldest first (R105 "command port", R106). -/
  inFlight : List CommandWord
deriving DecidableEq, Repr

/-- After reset nothing is in flight (R105). -/
def Pipe.reset : Pipe where
  toState := State.reset
  inFlight := []

/-- Before the first reset what is in flight is arbitrary too (10_state.md R26; log entry 10). -/
def Pipe.powerUp (draw : Word) (inFlight : List CommandWord) (responses : List Word)
    (edges : List Edge) : Pipe where
  toState := State.powerUp draw responses edges
  inFlight := inFlight

/-- The edges still to come, replaced. -/
def Pipe.withEdges (p : Pipe) (edges : List Edge) : Pipe :=
  { p with toState := p.toState.withEdges edges }

/-- The commands in flight, replaced. -/
def Pipe.withInFlight (p : Pipe) (ws : List CommandWord) : Pipe := { p with inFlight := ws }

/-- A reset discards what is in flight as well (R106). -/
def Pipe.resetEngine (p : Pipe) : Pipe where
  toState := p.toState.resetEngine
  inFlight := []

/-- Delivery (20_memory.md R30). -/
def Pipe.deliver (p : Pipe) (e : Edge) : Pipe := { p with toState := p.toState.deliver e }

/-- Acceptance: the word sampled at the edge joins the commands in flight, as the youngest (R29). A `PIPE`
implementation may accept behind a response that waits, so its `cmd_ready` is `e.ready`. -/
def Pipe.accept (p : Pipe) (e : Edge) : Pipe := p.withInFlight (p.inFlight ++ acceptedWords [e])

/-- The two handshakes at an edge with `rst = 0`: they may coincide and do not interact (60_exceptions.md
R93). -/
def Pipe.handshakes (p : Pipe) (e : Edge) : Pipe := (p.deliver e).accept e

/-- The command to execute at an edge, and the commands behind it: the oldest accepted one, if the
implementation advances and no response waits for the host. A `READ` whose response waits is not
complete, and nothing after it can execute (20_memory.md R38, R43; log entries 4 and 5). -/
def Pipe.nextCommand (p : Pipe) (e : Edge) : Option (CommandWord × List CommandWord) :=
  match e.advance, p.responses, p.inFlight with
  | true, [], w :: ws => some (w, ws)
  | true, [], [] => none
  | true, _ :: _, _ => none
  | false, _, _ => none

/-- A command executes as if alone, on the engine (R24, R82). -/
def Pipe.execute (i : Instr) (p : Pipe) : Host.Outcome Pipe Fault Refusal :=
  match exec i p.toState with
  | .next t => .next { p with toState := t }
  | .fault r => .fault r
  | .refused r => .refused r

/-- One rising edge of `clk`: a reset, or the handshakes and then at most one command in flight, the
oldest (R31, R38; log entry 4). -/
def Pipe.step (p : Pipe) : Host.Outcome Pipe Fault Refusal :=
  match p.edges with
  | [] => .next p
  | e :: later =>
    match e.rst with
    | true => .next (p.withEdges later).resetEngine
    | false =>
      match ((p.withEdges later).handshakes e).nextCommand e with
      | none => .next ((p.withEdges later).handshakes e)
      | some (w, behind) =>
        Pipe.execute (decode w) (((p.withEdges later).handshakes e).withInFlight behind)

/-- `n` edges of `clk`, one after the other. -/
def Pipe.run : Nat → Pipe → Host.Outcome Pipe Fault Refusal
  | 0, p => .next p
  | n + 1, p =>
    match p.step with
    | .next q => Pipe.run n q
    | .fault r => .fault r
    | .refused r => .refused r

/-- The end of a run, as `State.finished`, with nothing in flight (70_reset_and_hazards.md R114; log entry
21). -/
def Pipe.finished (p : Pipe) : Bool := p.toState.finished && p.inFlight.isEmpty

/-- Every response given or still owed, if no reset comes and nothing more is accepted: delivered,
waiting, and those of the commands in flight. -/
def Pipe.allResponses (p : Pipe) : List Word :=
  p.delivered ++ p.responses ++ (transactAll p.crc (p.inFlight.map decode)).2

/-- The value `CRC` comes to when the commands in flight have executed. -/
def Pipe.finalCrc (p : Pipe) : Word := (transactAll p.crc (p.inFlight.map decode)).1

/-- What a run comes to, if no reset comes, when every command in flight and every word still to be
accepted has executed: the last `CRC`, and every response in order. -/
def Pipe.promised (p : Pipe) : Word × List Word :=
  ((transactAll p.crc ((p.inFlight ++ acceptedWords p.edges).map decode)).1,
    p.delivered ++ p.responses ++
      (transactAll p.crc ((p.inFlight ++ acceptedWords p.edges).map decode)).2)

end Sys2Proof.Machine
end

