-- ==== Sys2Proof/Machine/Remainder.lean ====
section
/-! DEFINITION. Machine/Remainder.lean: the polynomial-remainder view of 42_datapath_forms.md R87, by
explicit long division over GF(2). A polynomial is the list of its coefficients, the highest first; a
remainder is a 32-bit value whose bit k is the coefficient of x^k. -/

namespace Sys2Proof.Machine

/-- `poly(r)`: bit 0 of the raw register is the coefficient of x^31, bit 31 that of 1. -/
def polyOfRaw (r : Word) : List Bool := (List.range 32).map r.getLsbD

/-- `poly8(b)`: bit 0 of a byte is the coefficient of x^7. -/
def polyOfByte (b : Byte) : List Bool := (List.range 8).map b.getLsbD

/-- `M_c(x)`: bit 0 of the first byte is the highest coefficient. -/
def polyOfChunk (c : Chunk) : List Bool := c.flatMap polyOfByte

/-- `x^k * p(x)`. -/
def timesPower (k : Nat) (p : List Bool) : List Bool := p ++ List.replicate k false

/-- The sum over GF(2) of two polynomials written with the same number of coefficients. -/
def polyAdd (p q : List Bool) : List Bool := List.zipWith Bool.xor p q

/-- One step of long division by `P(x)`: bring down the next coefficient, and subtract `P(x)`, whose
leading term x^32 `polyCanon` omits, if x^32 has come up. -/
def divideStep (a : Word) (coefficient : Bool) : Word :=
  let next := (a <<< 1) ||| (BitVec.ofBool coefficient).setWidth 32
  if a.getLsbD 31 then next ^^^ polyCanon else next

/-- `p(x) mod P(x)`. -/
def polyMod (p : List Bool) : Word := p.foldl divideStep 0#32

/-- The exponents of `P(x)` below 32, as R87 writes them out. -/
def polyExponents : List Nat :=
  [28, 27, 26, 25, 23, 22, 20, 19, 18, 14, 13, 11, 10, 9, 8, 6, 0]

/-- The dividend of R87's third identity: x^(8n) * poly(RAW) + x^32 * M_c(x), for n bytes. -/
def dividend (raw : Word) (c : Chunk) : List Bool :=
  polyAdd (timesPower (8 * c.length) (polyOfRaw raw)) (timesPower 32 (polyOfChunk c))

end Sys2Proof.Machine
end

