-- ==== Sys2Proof/Machine/Trace.lean ====
section
/-! DEFINITION. Machine/Trace.lean: what a run shows on the wires, and the command sequence it accepts
(20_memory.md R29). -/

namespace Sys2Proof.Machine

/-- The next `n` edges of a run as the wires show them. -/
def wires : Nat → State → List Edge
  | 0, _ => []
  | n + 1, s =>
    match s.edges, step s with
    | e :: _, .next t => s.shown e :: wires n t
    | [], _ => []
    | _ :: _, .fault _ => []
    | _ :: _, .refused _ => []

/-- The commands the next `n` edges of a run accept, in the order of their accepting edges: the command
sequence (R29). -/
def commandSequence (n : Nat) (s : State) : List Instr := (acceptedWords (wires n s)).map decode

end Sys2Proof.Machine
end

