-- ==== Sys2Proof/Safety.lean ====
section
/-! DEFINITION. Safety.lean: runs, and what counts as a safe one, in the terms the statements use. -/

namespace Sys2Proof.Machine

/-- `n` edges of `clk`, one after the other. -/
def run : Nat → State → Host.Outcome State Fault Refusal
  | 0, s => .next s
  | n + 1, s =>
    match step s with
    | .next t => run n t
    | .fault r => .fault r
    | .refused r => .refused r

/-- An outcome is safe if it is a next state: no command faults and none is refused (60_exceptions.md
R90). -/
def Safe {σ : Type} (o : Host.Outcome σ Fault Refusal) : Prop := ∃ t, o = .next t

/-- At most one response waits for the host: the engine executes nothing behind an undelivered response
(20_memory.md R43). An invariant of the step, true after reset. -/
def OneResponseWaits (s : State) : Prop := s.responses.length ≤ 1

end Sys2Proof.Machine
end

