-- ==== Sys2Proof/Certificates/Slice0/Obligations.lean ====
section
/-! DEFINITION. Certificates/Slice0/Obligations.lean: the statements for the provers. "Rule" below is a
numbered rule of spec/. -/

open Sys2Proof Sys2Proof.Machine

/-! ### The update commands and the state-transfer commands -/

/-- Rule R68, whole: `UPD0` leaves the state as it is, whatever its ignored bits, wherever it stands. -/
def Obligations.Upd0AbsorbsNothing : Prop :=
  (∀ w, opOf w = 0#3 → decode w = .upd0) ∧
  encode .upd0 = 0x000000000#35 ∧
  (∀ s : State, exec .upd0 s = .next { s with crc := update s.crc [] }) ∧
  (∀ s : State, exec .upd0 s = .next s) ∧
  (∀ crc before after,
    transactAll crc (before ++ .upd0 :: after) = transactAll crc (before ++ after)) ∧
  (∀ n, transactAll 0x00000000#32 (List.replicate n .upd0 ++ [.read]) =
    (0x00000000#32, [0x00000000#32])) ∧
  exec (decode 0x0ABCDEF01#35) { State.reset with crc := 0xE3069283#32 } =
    .next { State.reset with crc := 0xE3069283#32 }

/-- Rule R69, whole: `UPD1` absorbs lane 0 and nothing else changes. -/
def Obligations.Upd1AbsorbsLaneZero : Prop :=
  (∀ w, opOf w = 1#3 → decode w = .upd1 (lane (dataOf w) 0)) ∧
  (∀ b0 : Byte, encode (.upd1 b0) = commandWord 1#3 (b0.setWidth 32)) ∧
  (∀ b0 (s : State), exec (.upd1 b0) s = .next { s with crc := update s.crc [b0] }) ∧
  (∀ b0 (s : State), exec (.upd1 b0) s = .next { s with crc := ~~~(bytestep (~~~s.crc) b0) }) ∧
  update 0x00000000#32 [0x00#8] = 0x527D5351#32 ∧
  update 0x00000000#32 [0x00#8, 0x00#8] = 0xF16177D2#32 ∧
  update 0x00000000#32 [0x00#8, 0x00#8, 0x00#8] = 0x6064A37A#32 ∧
  update 0x00000000#32 [0x00#8, 0x00#8, 0x00#8, 0x00#8] = 0x48674BC7#32 ∧
  (∀ n, transactAll 0xFFFFFFFF#32 (List.replicate n (.upd1 0x00#8)) = (0xFFFFFFFF#32, [])) ∧
  checksum [0xFF#8, 0xFF#8, 0xFF#8, 0xFF#8] = 0xFFFFFFFF#32 ∧
  update 0x00000000#32 [0xFF#8] = 0xFF000000#32 ∧
  decode 0x1FFFFFF31#35 = decode 0x100000031#35 ∧
  exec (decode 0x100000061#35) State.reset = .next { State.reset with crc := 0xC1D04330#32 }

/-- Rule R70, whole: `UPD2` absorbs lane 0, then lane 1; their order matters unless they are equal. -/
def Obligations.Upd2AbsorbsTwoLanes : Prop :=
  (∀ w, opOf w = 2#3 → decode w = .upd2 (lane (dataOf w) 0) (lane (dataOf w) 1)) ∧
  (∀ b0 b1 : Byte,
    encode (.upd2 b0 b1) = commandWord 2#3 (b0.setWidth 32 ||| b1.setWidth 32 <<< 8)) ∧
  (∀ b0 b1 (s : State), exec (.upd2 b0 b1) s = .next { s with crc := update s.crc [b0, b1] }) ∧
  (∀ b0 b1 (s : State),
    exec (.upd2 b0 b1) s =
      .next { s with crc := ~~~(bytestep (bytestep (~~~s.crc) b0) b1) }) ∧
  (∀ crc b0 b1, update crc [b0, b1] = update crc [b1, b0] ↔ b0 = b1) ∧
  (∀ crc b0 b1, transactAll crc [.upd2 b0 b1] = transactAll crc [.upd1 b0, .upd1 b1]) ∧
  update 0x00000000#32 [0x00#8, 0x00#8] = 0xF16177D2#32 ∧
  update 0x00000000#32 [0xFF#8, 0xFF#8] = 0xFFFF0000#32 ∧
  exec (decode 0x200003332#35) { State.reset with crc := 0x90F599E3#32 } =
    .next { State.reset with crc := 0x107B2FB2#32 }

/-- Rule R71, whole: `UPD3` absorbs lanes 0, 1, 2 in that order; lane 3 is ignored. -/
def Obligations.Upd3AbsorbsThreeLanes : Prop :=
  (∀ w, opOf w = 3#3 →
    decode w = .upd3 (lane (dataOf w) 0) (lane (dataOf w) 1) (lane (dataOf w) 2)) ∧
  (∀ b0 b1 b2 : Byte,
    encode (.upd3 b0 b1 b2) =
      commandWord 3#3 (b0.setWidth 32 ||| b1.setWidth 32 <<< 8 ||| b2.setWidth 32 <<< 16)) ∧
  (∀ b0 b1 b2 (s : State),
    exec (.upd3 b0 b1 b2) s = .next { s with crc := update s.crc [b0, b1, b2] }) ∧
  (∀ b0 b1 b2 (s : State),
    exec (.upd3 b0 b1 b2) s =
      .next { s with crc := ~~~(bytestep (bytestep (bytestep (~~~s.crc) b0) b1) b2) }) ∧
  (∀ d d', (∀ k, k < 3 → lane d k = lane d' k) →
    decode (commandWord 3#3 d) = decode (commandWord 3#3 d')) ∧
  update 0x00000000#32 [0x00#8, 0x00#8, 0x00#8] = 0x6064A37A#32 ∧
  update 0x00000000#32 [0xFF#8, 0xFF#8, 0xFF#8] = 0xFFFFFF00#32 ∧
  exec (decode 0x300393837#35) { State.reset with crc := 0x41357186#32 } =
    .next { State.reset with crc := 0xE3069283#32 }

/-- Rule R72, whole: `UPD4` absorbs all four lanes, the least significant byte of `data` first. -/
def Obligations.Upd4AbsorbsFourLanes : Prop :=
  (∀ w, opOf w = 4#3 →
    decode w =
      .upd4 (lane (dataOf w) 0) (lane (dataOf w) 1) (lane (dataOf w) 2) (lane (dataOf w) 3)) ∧
  (∀ b0 b1 b2 b3 : Byte,
    encode (.upd4 b0 b1 b2 b3) =
      commandWord 4#3
        (b0.setWidth 32 ||| b1.setWidth 32 <<< 8 ||| b2.setWidth 32 <<< 16 |||
          b3.setWidth 32 <<< 24)) ∧
  (∀ b0 b1 b2 b3 (s : State),
    exec (.upd4 b0 b1 b2 b3) s = .next { s with crc := update s.crc [b0, b1, b2, b3] }) ∧
  (∀ b0 b1 b2 b3 (s : State),
    exec (.upd4 b0 b1 b2 b3) s =
      .next { s with
        crc := ~~~(bytestep (bytestep (bytestep (bytestep (~~~s.crc) b0) b1) b2) b3) }) ∧
  (∀ d d', decode (commandWord 4#3 d) = decode (commandWord 4#3 d') → d = d') ∧
  (∀ d crc, (transact crc (decode (commandWord 4#3 d))).1 = wordForm 4 crc d) ∧
  exec (decode 0x434333231#35) State.reset = .next { State.reset with crc := 0xF63AF4EE#32 } ∧
  decode 0x431323334#35 = .upd4 0x34#8 0x33#8 0x32#8 0x31#8 ∧
  update 0x00000000#32 [0x00#8, 0x00#8, 0x00#8, 0x00#8] = 0x48674BC7#32 ∧
  update 0x00000000#32 [0xFF#8, 0xFF#8, 0xFF#8, 0xFF#8] = 0xFFFFFFFF#32 ∧
  exec (decode 0x438373635#35) { State.reset with crc := 0xF63AF4EE#32 } =
    .next { State.reset with crc := 0x6087809A#32 }

/-- Rule R74, whole: `INIT` writes 0, the value before it is lost. -/
def Obligations.InitStartsAnItem : Prop :=
  (∀ w, opOf w = 5#3 → decode w = .init) ∧
  encode .init = 0x500000000#35 ∧
  (∀ s : State, exec .init s = .next { s with crc := 0x00000000#32 }) ∧
  (∀ (s : State) v, exec .init { s with crc := v } = exec .init s) ∧
  (∀ s : State, s.crc = 0x00000000#32 → exec .init s = .next s) ∧
  (∀ s : State, exec .init s = exec (.load 0x00000000#32) s) ∧
  (∀ crc, transactAll crc [.init, .read] = (checksum [], [0x00000000#32])) ∧
  exec (decode 0x500000000#35) { State.reset with crc := 0xE3069283#32 } = .next State.reset

/-- Rule R75, whole: `LOAD` writes every value it is given; updates after it continue from that value, so
loading a saved state resumes its computation exactly. -/
def Obligations.LoadSetsTheState : Prop :=
  (∀ w, opOf w = 6#3 → decode w = .load (dataOf w)) ∧
  (∀ v : Word, encode (.load v) = commandWord 6#3 v) ∧
  (∀ v (s : State), exec (.load v) s = .next { s with crc := v }) ∧
  (∀ v v' (s : State), exec (.load v) { s with crc := v' } = exec (.load v) s) ∧
  (∀ crc v updates, (∀ i ∈ updates, isUpdate i = true) →
    transactAll crc (.load v :: updates) = (update v (updates.flatMap chunkOf), [])) ∧
  (∀ crc other before after,
    transactAll other (.load (transactAll crc before).1 :: after) =
      transactAll (transactAll crc before).1 after) ∧
  exec (decode 0x6F63AF4EE#35) { State.reset with crc := 0x8C28B28A#32 } =
    .next { State.reset with crc := 0xF63AF4EE#32 }

/-- Rule R76, whole: `READ` responds with the state as it is, changes nothing else, and may stand anywhere
in an item. -/
def Obligations.ReadReturnsTheState : Prop :=
  (∀ w, opOf w = 7#3 → decode w = .read) ∧
  encode .read = 0x700000000#35 ∧
  (∀ s : State, exec .read s = .next { s with responses := s.responses ++ [s.crc] }) ∧
  (∀ before after, (∀ i ∈ before ++ after, isUpdate i = true) →
    transactAll 0x00000000#32 (before ++ .read :: after) =
      (checksum (before.flatMap chunkOf ++ after.flatMap chunkOf),
        [checksum (before.flatMap chunkOf)])) ∧
  (∀ crc before after,
    (transactAll crc (before ++ .read :: after)).2 =
      (transactAll crc before).2 ++
        (transactAll crc before).1 :: (transactAll (transactAll crc before).1 after).2) ∧
  (∀ crc, transactAll crc [.read, .read] = (crc, [crc, crc])) ∧
  transactAll State.reset.crc [.read] = (0x00000000#32, [0x00000000#32]) ∧
  exec (decode 0x700000000#35) { State.reset with crc := 0xE3069283#32 } =
    .next { State.reset with crc := 0xE3069283#32, responses := [0xE3069283#32] }

/-- The frame of all eight commands: the outputs given and the inputs to come are unchanged; only `READ`
responds, and it leaves `CRC`. In a `PIPE` implementation a command leaves those behind it in flight. -/
def Obligations.CommandFrame : Prop :=
  (∀ i (s t : State), exec i s = .next t →
    t.delivered = s.delivered ∧ t.edges = s.edges ∧
    (i = .read → t.crc = s.crc ∧ t.responses = s.responses ++ [s.crc]) ∧
    (i ≠ .read → t.responses = s.responses) ∧
    (i = .upd0 → t.crc = s.crc)) ∧
  (∀ i (p q : Pipe), Pipe.execute i p = .next q →
    q.inFlight = p.inFlight ∧ exec i p.toState = .next q.toState)

/-- Every command, on every state, answers the next state the transaction level gives: the step of the
architectural state (rules R11 and R12's shape), and its response behind those that wait. -/
def Obligations.ExecIsTheTransaction : Prop :=
  (∀ i (s : State),
    exec i s =
      .next { s with
        crc := (transact s.crc i).1
        responses := s.responses ++ (transact s.crc i).2.toList }) ∧
  (∀ i (s t : State), exec i s = .next t →
    t.toEngine = (s.toEngine.step i).1 ∧
    t.responses = s.responses ++ (s.toEngine.step i).2.toList)

/-- Rule R35: `READ`, `INIT`, `LOAD` and `UPD0` are idempotent on `CRC`; an update absorbs its bytes at
every execution. -/
def Obligations.WhichCommandsAreIdempotent : Prop :=
  (∀ i crc, isUpdate i = false ∨ i = .upd0 →
    (transact (transact crc i).1 i).1 = (transact crc i).1) ∧
  (∀ crc, (transact (transact crc .read).1 .read).2 = (transact crc .read).2) ∧
  (∀ i crc, isUpdate i = true →
    (transact (transact crc i).1 i).1 = update crc (chunkOf i ++ chunkOf i)) ∧
  (∀ i, isUpdate i = true → i ≠ .upd0 → ∃ crc, (transact (transact crc i).1 i).1 ≠ (transact crc i).1)

/-! ### Encoding -/

/-- Decode and encode agree on every command, with every operand at every value. -/
def Obligations.DecodeEncodeIsIdentity : Prop :=
  ∀ i : Instr, i.wellFormed = true → decode (encode i) = i

/-- Encoding what a word decodes to gives the word's spelling in which every ignored bit is 0. -/
def Obligations.EncodeDecodeIsCanonical : Prop :=
  (∀ w, encode (decode w) = canonical w) ∧ (∀ w, decode (canonical w) = decode w)

/-- Rule R48, whole: every word is a command with a defined effect, and two words are the same command
exactly if they differ in ignored bits at most. -/
def Obligations.DecodingIsTotalAndIgnores : Prop :=
  (∀ w (s : State), ∃ t, exec (decode w) s = .next t) ∧
  (∀ w w', decode w = decode w' ↔
    opOf w = opOf w' ∧ dataOf w &&& usedBits (opOf w) = dataOf w' &&& usedBits (opOf w)) ∧
  (∀ w w', opOf w = opOf w' → dataOf w &&& usedBits (opOf w) = dataOf w' &&& usedBits (opOf w) →
    ∀ (s : State), exec (decode w) s = exec (decode w') s)

/-- Rule R47, whole: the opcode map, its formats, its match and mask, and the bytes `op` counts. -/
def Obligations.OpcodeMap : Prop :=
  (∀ w, (decode w).opcode = opOf w) ∧
  (∀ w, (opOf w).toNat = 0 → decode w = .upd0) ∧
  (∀ w, (opOf w).toNat = 1 → ∃ b0, decode w = .upd1 b0) ∧
  (∀ w, (opOf w).toNat = 2 → ∃ b0 b1, decode w = .upd2 b0 b1) ∧
  (∀ w, (opOf w).toNat = 3 → ∃ b0 b1 b2, decode w = .upd3 b0 b1 b2) ∧
  (∀ w, (opOf w).toNat = 4 → ∃ b0 b1 b2 b3, decode w = .upd4 b0 b1 b2 b3) ∧
  (∀ w, (opOf w).toNat = 5 → decode w = .init) ∧
  (∀ w, (opOf w).toNat = 6 → ∃ v, decode w = .load v) ∧
  (∀ w, (opOf w).toNat = 7 → decode w = .read) ∧
  (∀ w, formatOf (decode w) =
    [Format.z, .b, .b, .b, .b, .z, .w, .z].getD (opOf w).toNat .z) ∧
  (∀ w, isUpdate (decode w) = true → (chunkOf (decode w)).length = (opOf w).toNat) ∧
  (∀ w : CommandWord, w &&& 0x700000000#35 = (opOf w).setWidth 35 <<< 32) ∧
  decode 0x000000000#35 = .upd0

/-- Rule R46, whole: what a lane is, the chunk an update command carries, and that absorbing a byte
touches only the low 8 bits of the raw register before the shifts. -/
def Obligations.LanesAreBytesOfData : Prop :=
  (∀ (d : Word) k j, k < 4 → j < 8 → (lane d k).getLsbD j = d.getLsbD (8 * k + j)) ∧
  (∀ w, isUpdate (decode w) = true →
    chunkOf (decode w) = firstLanes (opOf w).toNat (dataOf w)) ∧
  (∀ (b : Byte) k, (zext32 b).getLsbD k = (decide (k < 8) && b.getLsbD k)) ∧
  (∀ (r : Word) (b : Byte) k, 8 ≤ k → (r ^^^ zext32 b).getLsbD k = r.getLsbD k) ∧
  (∀ w, opOf w = 6#3 → decode w = .load (dataOf w))

/-- Words written out from spec/opcode_table.json decode to the commands they stand for. -/
def Obligations.WordsOfTheTableDecode : Prop :=
  decode 0x144332211#35 = .upd1 0x11#8 ∧
  decode 0x344332211#35 = .upd3 0x11#8 0x22#8 0x33#8 ∧
  decode 0x434333231#35 = .upd4 0x31#8 0x32#8 0x33#8 0x34#8 ∧
  decode 0x5FFFFFFFF#35 = .init ∧
  decode 0x6F63AF4EE#35 = .load 0xF63AF4EE#32 ∧
  decode 0x7FFFFFFFF#35 = .read

/-! ### The algorithm -/

/-- Rule R58, whole: one shift, bit by bit, with the feedback decided by bit 0 before the shift. -/
def Obligations.BitstepBitByBit : Prop :=
  (∀ (r : Word) k, k < 32 →
    (bitstep r).getLsbD k =
      Bool.xor (r.getLsbD (k + 1)) (r.getLsbD 0 && (0x82F63B78#32).getLsbD k)) ∧
  (∀ r : Word, r.getLsbD 0 = true → bitstep r = (r >>> 1) ^^^ 0x82F63B78#32) ∧
  (∀ r : Word, r.getLsbD 0 = false → bitstep r = r >>> 1) ∧
  bitstep 0x00000000#32 = 0x00000000#32 ∧ bitstep 0x00000001#32 = 0x82F63B78#32 ∧
  bitstep 0x00000002#32 = 0x00000001#32 ∧ bitstep 0x80000000#32 = 0x40000000#32 ∧
  bitstep 0xFFFFFFFF#32 = 0xFD09C487#32

/-- Rule R59, whole: one exclusive OR, then exactly eight shifts. -/
def Obligations.BytestepIsXorThenEightShifts : Prop :=
  (∀ (r : Word) (b : Byte), bytestep r b = bitsteps 8 (r ^^^ zext32 b)) ∧
  bytestep 0x00000000#32 0x00#8 = 0x00000000#32 ∧ bytestep 0x00000000#32 0x01#8 = 0xF26B8303#32 ∧
  bytestep 0x00000000#32 0x80#8 = 0x82F63B78#32 ∧ bytestep 0xFFFFFFFF#32 0x00#8 = 0xAD82ACAE#32 ∧
  bytestep 0xFFFFFFFF#32 0xFF#8 = 0x00FFFFFF#32 ∧ bytestep 0x000000FF#32 0xFF#8 = 0x00000000#32

/-- Rule R60, whole: pre-invert, the bytes in order, post-invert, on every call. -/
def Obligations.UpdateIsThreeSteps : Prop :=
  (∀ s c, update s c = (c.foldl bytestep (s ^^^ 0xFFFFFFFF#32)) ^^^ 0xFFFFFFFF#32) ∧
  update 0x00000000#32 [0x00#8] = 0x527D5351#32 ∧
  update 0xF63AF4EE#32 [0x35#8, 0x36#8, 0x37#8, 0x38#8, 0x39#8] = 0xE3069283#32 ∧
  update 0xDEADBEEF#32 [0x00#8] = 0xEF806AD1#32

/-- Rule R61, whole: the checksum of a message, with the document's own three values. -/
def Obligations.ChecksumStartsFromZero : Prop :=
  (∀ c, checksum c = update 0x00000000#32 c) ∧
  checksum [] = 0x00000000#32 ∧
  checksum [0x00#8] = 0x527D5351#32 ∧
  checksum [0x31#8, 0x32#8, 0x33#8, 0x34#8, 0x35#8, 0x36#8, 0x37#8, 0x38#8, 0x39#8] = 0xE3069283#32

/-- Rule R62, whole: chunk boundaries never affect the result, whatever the number of chunks and however a
message is cut into `UPD0` to `UPD4`. -/
def Obligations.ChunkingInvariance : Prop :=
  (∀ s a b, update (update s a) b = update s (a ++ b)) ∧
  (∀ a b, checksum (a ++ b) = update (checksum a) b) ∧
  (∀ s (chunks : List Chunk), chunks.foldl update s = update s chunks.flatten) ∧
  (∀ s updates, (∀ i ∈ updates, isUpdate i = true) →
    transactAll s updates = (update s (updates.flatMap chunkOf), []))

/-- Rule R63, whole: the empty chunk leaves every state. -/
def Obligations.EmptyChunkLeavesTheState : Prop :=
  (∀ s, update s [] = s) ∧ checksum [] = 0x00000000#32

/-- Rule R16, whole: from 0, after the bytes of a message in any chunking, `CRC` is the message's finished
checksum, with reads between the chunks or without. -/
def Obligations.CrcIsTheChecksumSoFar : Prop :=
  (∀ crc commands, (∀ i ∈ commands, isUpdate i = true ∨ i = .read) →
    (transactAll crc (.init :: commands)).1 = checksum (commands.flatMap chunkOf)) ∧
  (∀ (s : State) commands, (∀ i ∈ commands, isUpdate i = true ∨ i = .read) →
    s.responses = [] → s.edges = offerAll (.init :: commands) →
    ∃ t, run s.edges.length s = .next t ∧ t.crc = checksum (commands.flatMap chunkOf))

/-- Rule R109: without an `INIT` between two items, the second result is the checksum of both items' bytes;
with one, it is its own. -/
def Obligations.ItemsNeedAnInit : Prop :=
  (∀ first second, (∀ i ∈ first ++ second, isUpdate i = true) →
    (transactAll 0x00000000#32 (first ++ .read :: (second ++ [.read]))).2 =
      [checksum (first.flatMap chunkOf), checksum (first.flatMap chunkOf ++ second.flatMap chunkOf)]) ∧
  (∀ first second, (∀ i ∈ first ++ second, isUpdate i = true) →
    (transactAll 0x00000000#32 (first ++ .read :: .init :: (second ++ [.read]))).2 =
      [checksum (first.flatMap chunkOf), checksum (second.flatMap chunkOf)]) ∧
  checksum [0x61#8, 0x62#8] = 0xE2A22936#32 ∧ checksum [0x62#8] = 0xD280B0C4#32

/-- Rule R101: a computation interrupted by any other commands between a saving `READ` and a restoring
`LOAD` of the saved value ends as if it had not been interrupted. -/
def Obligations.SaveAndRestoreResumes : Prop :=
  ∀ crc before other after,
    (transactAll crc
      (before ++ .read :: (other ++ .load (transactAll crc before).1 :: after))).1 =
      (transactAll crc (before ++ after)).1 ∧
    (transactAll crc
      (before ++ .read :: (other ++ .load (transactAll crc before).1 :: after))).2 =
      (transactAll crc before).2 ++ (transactAll crc before).1 ::
        ((transactAll (transactAll crc before).1 other).2 ++
          (transactAll (transactAll crc before).1 after).2)

/-! ### Equivalent formulations -/

/-- Rule R83, whole: the word form equals the lane-by-lane definition, for every update command. -/
def Obligations.WordFormIsTheUpdate : Prop :=
  (∀ n crc data, n ≤ 4 → wordForm n crc data = update crc (firstLanes n data)) ∧
  (∀ w (s : State), isUpdate (decode w) = true →
    exec (decode w) s = .next { s with crc := wordForm (opOf w).toNat s.crc (dataOf w) })

/-- Rule R84, whole: the 32 equations give `bytestep` bit by bit, and `UPD1` is its complement form. -/
def Obligations.BytestepEquationsHold : Prop :=
  bytestepEquations.length = 32 ∧
  (∀ (r : Word) (d : Byte) k, k < 32 →
    (bytestep r d).getLsbD k = equationValue r d (bytestepEquations.getD k ([], none))) ∧
  (∀ s d, update s [d] = ~~~(bytestep (~~~s) d))

/-- Rule R85, whole: the printed table is the table, and the table form is `bytestep`. -/
def Obligations.TableFormIsBytestep : Prop :=
  printedTable.length = 256 ∧
  (∀ b : Byte, printedTable.getD b.toNat 0#32 = bytestep 0x00000000#32 b) ∧
  (∀ (r : Word) (b : Byte),
    bytestep r b = (r >>> 8) ^^^ printedTable.getD ((r ^^^ zext32 b).setWidth 8 : Byte).toNat 0#32) ∧
  printedTable.getD 0 0#32 = 0x00000000#32 ∧ printedTable.getD 1 0#32 = 0xF26B8303#32 ∧
  printedTable.getD 128 0#32 = polyRef ∧ printedTable.getD 255 0#32 = 0xAD7D5351#32

/-- Rule R86, linearity, (a), (b) and (e): the old register and the data contribute separately. -/
def Obligations.BitstepIsLinear : Prop :=
  (∀ x y, bitstep (x ^^^ y) = bitstep x ^^^ bitstep y) ∧
  bitstep 0#32 = 0#32 ∧
  (∀ r b, bytestep r b = bitsteps 8 r ^^^ tableEntry b) ∧
  (∀ r (c : Chunk), c.foldl bytestep r = bitsteps (8 * c.length) r ^^^ rawContribution c) ∧
  (∀ s1 s2 (c : Chunk), update s1 c ^^^ update s2 c = bitsteps (8 * c.length) (s1 ^^^ s2)) ∧
  (∀ n, update 0xFFFFFFFF#32 (List.replicate n 0x00#8) = 0xFFFFFFFF#32)

/-- Rule R86 (c): `bitstep` is a bijection with the inverse given, so two different states stay different
however many bytes are absorbed. -/
def Obligations.UpdateIsABijection : Prop :=
  (∀ r, bitstepInverse (bitstep r) = r) ∧ (∀ y, bitstep (bitstepInverse y) = y) ∧
  (∀ b, Function.Bijective fun r => bytestep r b) ∧
  (∀ c, Function.Bijective fun s => update s c)

/-- Rule R86 (d): every 32-bit value is the checksum of exactly one four-byte message, the one given. -/
def Obligations.EveryValueIsOneChecksum : Prop :=
  ∀ v m, m.length = 4 → (checksum m = v ↔ m = messageOf v)

/-- Rule R87: the raw register is a polynomial remainder, for one shift, for one byte and for a chunk of
any length, by long division by P(x). -/
def Obligations.RawIsAPolynomialRemainder : Prop :=
  (∀ k, k < 32 → (polyCanon.getLsbD k = true ↔ k ∈ polyExponents)) ∧
  (∀ k, k < 32 → polyRef.getLsbD k = polyCanon.getLsbD (31 - k)) ∧
  (∀ (r : Word) k, k < 32 →
    (polyMod (timesPower 1 (polyOfRaw r))).getLsbD k = (bitstep r).getLsbD (31 - k)) ∧
  (∀ (r : Word) (b : Byte) k, k < 32 →
    (polyMod (polyAdd (timesPower 8 (polyOfRaw r)) (timesPower 32 (polyOfByte b)))).getLsbD k =
      (bytestep r b).getLsbD (31 - k)) ∧
  (∀ (raw : Word) (c : Chunk) k, k < 32 →
    (polyMod (dividend raw c)).getLsbD k = (c.foldl bytestep raw).getLsbD (31 - k)) ∧
  (∀ c, checksum c = ~~~(c.foldl bytestep 0xFFFFFFFF#32))

/-- Rule R89, whole: an engine that stores the raw register gives every response of the engine that stores
`CRC`, and keeps its complement. -/
def Obligations.StoringRawIsTheSameEngine : Prop :=
  rawReset = ~~~State.reset.crc ∧
  ∀ crc words,
    rawTransactAll (~~~crc) words =
      (~~~(transactAll crc (words.map decode)).1, (transactAll crc (words.map decode)).2)

/-! ### Pseudo-instructions and text -/

/-- Rule R53, whole: the expansions and what they do. -/
def Obligations.PseudoInstructions : Prop :=
  nop.map encode = [encode .upd0] ∧ save = [.read] ∧ (∀ v, restore v = [.load v]) ∧
  (∀ c, (bytesCommands c).flatMap chunkOf = c) ∧
  (∀ c, ((bytesCommands c).take (c.length / 4)).map Instr.opcode =
      List.replicate (c.length / 4) 4#3 ∧
    ((bytesCommands c).drop (c.length / 4)).map Instr.opcode =
      if c.length % 4 = 0 then [] else [BitVec.ofNat 3 (c.length % 4)]) ∧
  (∀ (text : List Char) codes, text.mapM asciiCode = some codes →
    assembleMnemonic ['S', 'T', 'R'] [.text text] = some (bytesCommands codes)) ∧
  (∀ c, checksumCommands c = .init :: (bytesCommands c ++ [.read])) ∧
  (∀ crc c, transactAll crc (checksumCommands c) = (checksum c, [checksum c]))

/-- Rule R54, whole: the document's two functions as command sequences. -/
def Obligations.DocumentFunctionsAsCommands : Prop :=
  (∀ crc s c, transactAll crc (updateCommands s c) = (update s c, [update s c])) ∧
  (∀ s c, transactAll s (bytesCommands c ++ [.read]) = (update s c, [update s c])) ∧
  (∀ s c, transactAll s (bytesCommands c) = (update s c, [])) ∧
  (∀ crc c, (transactAll crc (checksumCommands c)).2 = [checksum c])

/-- Rule R52: the canonical line of a command assembles to its canonical word, and the raw form of a word
to that word. -/
def Obligations.AssemblingWhatIsWritten : Prop :=
  (∀ i, assemble (render i) = some [encode i]) ∧ (∀ w, assemble (renderRaw w) = some [w])

/-! ### Ports, order and time

`State` and `step` are the model, in which a command executes at the edge that accepts it; `Pipe` and
`Pipe.step` are a `PIPE` implementation, in which it may execute later (log entry 20). -/

/-- A step runs the decoded command: at an edge that accepts a command, the word on the port executes on the
state the delivery leaves. In a `PIPE` implementation, at an edge without reset at which it advances and,
once a response the host takes is delivered, none waits, the oldest command in flight executes on the
state the handshakes leave. -/
def Obligations.StepRunsTheDecodedCommand : Prop :=
  (∀ (s : State) e later,
    s.edges = e :: later → s.accepts e = true →
    step s = exec (decode (commandWord e.cmdOp e.cmdData)) ((s.withEdges later).deliver e)) ∧
  (∀ (p : Pipe) e later w behind,
    p.edges = e :: later → e.rst = false → e.advance = true →
    ((p.withEdges later).handshakes e).responses = [] →
    ((p.withEdges later).handshakes e).inFlight = w :: behind →
    p.step = Pipe.execute (decode w) (((p.withEdges later).handshakes e).withInFlight behind))

/-- With no response waiting, a word offered to a willing engine executes at that edge, on the state as it
is; so it does in a `PIPE` implementation with nothing in flight that advances. That the model executes at
the accepting edge is its choice (log entry 20). -/
def Obligations.AcceptedCommandExecutes : Prop :=
  (∀ (s : State) e later,
    s.edges = e :: later → s.responses = [] → e.rst = false → e.cmdValid = true → e.ready = true →
    step s = exec (decode (commandWord e.cmdOp e.cmdData)) { s with edges := later }) ∧
  (∀ (p : Pipe) e later,
    p.edges = e :: later → p.inFlight = [] → p.responses = [] → e.accepts = true →
    e.advance = true →
    p.step = Pipe.execute (decode (commandWord e.cmdOp e.cmdData)) (p.withEdges later))

/-- Rule R29: a word is accepted exactly at an edge with `rst = 0`, `cmd_valid = 1` and `cmd_ready = 1`;
`cmd_ready` does not depend on what is offered; where no word is accepted none executes (the model's choice,
log entry 20). In a `PIPE` implementation an accepted word joins those in flight, as the youngest. -/
def Obligations.AcceptanceNeedsTheHandshake : Prop :=
  (∀ (s : State) e, s.accepts e = true ↔
    e.rst = false ∧ e.cmdValid = true ∧ s.cmdReady e = true) ∧
  (∀ (s : State) e valid op data,
    s.cmdReady { e with cmdValid := valid, cmdOp := op, cmdData := data } = s.cmdReady e) ∧
  (∀ (s : State) e later, s.edges = e :: later → e.rst = false → s.accepts e = false →
    step s = .next ((s.withEdges later).deliver e)) ∧
  (∀ (p : Pipe) e, e.rst = false →
    (p.handshakes e).inFlight =
      p.inFlight ++ (if e.cmdValid && e.ready then [commandWord e.cmdOp e.cmdData] else []))

/-- Rule R29: over edges as the wires show them, a word the host holds until it is accepted is accepted
once, as offered; and the edges a run shows are such edges, one for each step. -/
def Obligations.HeldOfferIsAcceptedOnce : Prop :=
  (∀ offer (stalls : List Edge) accepting,
    hostHolds (offer :: (stalls ++ [accepting])) = true →
    resetFree (offer :: (stalls ++ [accepting])) = true → offer.cmdValid = true →
    (∀ e ∈ offer :: stalls, e.ready = false) → accepting.ready = true →
    acceptedWords (offer :: (stalls ++ [accepting])) = [offer.command]) ∧
  (∀ (s : State) n, (wires n s).length = min n s.edges.length ∧
    (wires n s).map (fun e => { e with ready := false }) =
      (s.edges.take n).map (fun e => { e with ready := false }))

/-- Rule R30: at an edge without reset an offered response is delivered exactly if the host takes it, as
the next word of the response sequence, and otherwise stays offered, unchanged; in a `PIPE`
implementation too. That no response joins behind one the host does not take (`t.responses = s.responses`)
is not R30's but deduced from rule R43 (log entry 5). -/
def Obligations.ResponseIsHeldUntilDelivered : Prop :=
  (∀ (s t : State) e later v waiting,
    s.edges = e :: later → e.rst = false → s.responses = v :: waiting → step s = .next t →
    s.rspValid = true ∧ s.rspData = some v ∧
    (e.rspReady = true → t.delivered = s.delivered ++ [v]) ∧
    (e.rspReady = false →
      t.delivered = s.delivered ∧ t.responses = s.responses ∧ t.rspData = some v)) ∧
  (∀ (p q : Pipe) e later v waiting,
    p.edges = e :: later → e.rst = false → p.responses = v :: waiting → p.step = .next q →
    p.rspValid = true ∧ p.rspData = some v ∧
    (e.rspReady = true → q.delivered = p.delivered ++ [v]) ∧
    (e.rspReady = false →
      q.delivered = p.delivered ∧ q.responses = p.responses ∧ q.rspData = some v))

/-- Rule R93: reset wins over acceptance and delivery; without it the two may coincide and do not interact:
the response is delivered and the accepted command executes as on the state after the delivery. In a
`PIPE` implementation that does not advance at that edge the accepted command stays in flight. That the
words delivered before a reset edge stay in the record is deduced (log entry 15); that an accepted
command executes at its accepting edge is the model's choice (log entry 20). -/
def Obligations.CoincidingEvents : Prop :=
  (∀ (s t : State) e later, s.edges = e :: later → e.rst = true → step s = .next t →
    s.accepts e = false ∧ t.crc = 0x00000000#32 ∧ t.responses = [] ∧ t.delivered = s.delivered) ∧
  (∀ (s : State) e later v,
    s.edges = e :: later → e.rst = false → e.cmdValid = true → e.ready = true →
    e.rspReady = true → s.responses = [v] →
    step s = exec (decode e.command)
      { s with responses := [], delivered := s.delivered ++ [v], edges := later }) ∧
  (∀ (p q : Pipe) e later, p.edges = e :: later → e.rst = true → p.step = .next q →
    q.inFlight = [] ∧ q.delivered = p.delivered) ∧
  (∀ (p : Pipe) e, (p.deliver e).accept e = (p.accept e).deliver e) ∧
  (∀ (p q : Pipe) e later v waiting,
    p.edges = e :: later → e.rst = false → e.cmdValid = true → e.ready = true →
    e.rspReady = true → e.advance = false → p.responses = v :: waiting → p.step = .next q →
    q.delivered = p.delivered ++ [v] ∧ q.inFlight = p.inFlight ++ [e.command])

/-- Rules R104 and R106: at every edge with `rst = 1`, whatever the other wires carry, in every state (one
that has never been reset among them), any number of times; execution starts again at the first edge
with `rst = 0`. In a `PIPE` implementation what is in flight is discarded as well. That words already
delivered stay in the record is deduced (log entry 15). -/
def Obligations.ResetAtAnyEdge : Prop :=
  (∀ (s : State) e later, s.edges = e :: later → e.rst = true →
    step s = .next
      { crc := 0x00000000#32, responses := [], delivered := s.delivered, edges := later }) ∧
  (∀ (s : State) (resets later : List Edge), resets ≠ [] → (∀ e ∈ resets, e.rst = true) →
    s.edges = resets ++ later →
    run resets.length s = .next
      { crc := 0x00000000#32, responses := [], delivered := s.delivered, edges := later }) ∧
  (∀ (s : State) e e' later, s.edges = e :: e' :: later → e.rst = true → e'.accepts = true →
    run 2 s = exec (decode e'.command)
      { State.reset with delivered := s.delivered, edges := later }) ∧
  (∀ (p : Pipe) e later, p.edges = e :: later → e.rst = true →
    p.step = .next
      { crc := 0x00000000#32, responses := [], delivered := p.delivered, edges := later,
        inFlight := [] })

/-- Rules R25 and R105: every piece of state right after reset, and the value `INIT` writes; in a `PIPE`
implementation nothing is in flight. The two empty lists are the model's own fields (log entry 1). -/
def Obligations.StateAfterReset : Prop :=
  State.reset.crc = 0x00000000#32 ∧ State.reset.raw = 0xFFFFFFFF#32 ∧
  State.reset.responses = [] ∧ State.reset.rspValid = false ∧
  State.reset.delivered = [] ∧ State.reset.edges = [] ∧
  exec .init State.reset = .next State.reset ∧ OneResponseWaits State.reset ∧
  Pipe.reset.toState = State.reset ∧ Pipe.reset.inFlight = []

/-- Rules R26 and R108: after one reset, nothing depends on what `CRC` or the ports held at power-up, which
the model leaves arbitrary (log entry 10). -/
def Obligations.ResetForgetsPowerUp : Prop :=
  (∀ draw responses e later, e.rst = true →
    step (State.powerUp draw responses (e :: later)) = .next (State.reset.withEdges later)) ∧
  (∀ draw inFlight responses e later, e.rst = true →
    (Pipe.powerUp draw inFlight responses (e :: later)).step = .next (Pipe.reset.withEdges later))

/-- Rule R38, whole, for every timing: the responses given and waiting, and `CRC`, are those of the accepted
commands taken one at a time in the order of their acceptance, each on the value its predecessor left; a
`READ` reflects every command before it and none after it. In a `PIPE` implementation the same holds of
the responses given, waiting and owed, and of the value `CRC` comes to. -/
def Obligations.TimingIsInvisible : Prop :=
  (∀ s : State, resetFree s.edges = true →
    ∃ t, run s.edges.length s = .next t ∧ t.edges = [] ∧
      t.delivered ++ t.responses = s.delivered ++ s.responses ++
        (transactAll s.crc (commandSequence s.edges.length s)).2 ∧
      t.crc = (transactAll s.crc (commandSequence s.edges.length s)).1) ∧
  (∀ p : Pipe, resetFree p.edges = true →
    ∃ q, Pipe.run p.edges.length p = .next q ∧ q.edges = [] ∧
      q.allResponses = p.delivered ++ p.responses ++
        (transactAll p.crc ((p.inFlight ++ acceptedWords p.edges).map decode)).2 ∧
      q.finalCrc = (transactAll p.crc ((p.inFlight ++ acceptedWords p.edges).map decode)).1) ∧
  (∀ crc before after,
    transactAll crc (before ++ after) =
      ((transactAll (transactAll crc before).1 after).1,
        (transactAll crc before).2 ++ (transactAll (transactAll crc before).1 after).2))

/-- What the run of a `PIPE` implementation comes to is fixed from its start, whatever the timing: over
edges without reset, one step keeps the value `CRC` comes to and every response given, waiting, owed or
still to be asked for (rules R38 and R80). -/
def Obligations.StepKeepsWhatTheRunComesTo : Prop :=
  ∀ p q : Pipe, resetFree p.edges = true → p.step = .next q →
    q.promised = p.promised ∧ resetFree q.edges = true

/-- Rule R80: two implementations, that is two timings of a `PIPE` implementation or one of it and the
model's own, that accept the same commands and have finished end in the same state: the same response
sequence and the same `CRC`. -/
def Obligations.ImplementationsAreBitIdentical : Prop :=
  (∀ (p q q' : Pipe) (es es' : List Edge),
    resetFree es = true → resetFree es' = true → acceptedWords es = acceptedWords es' →
    Pipe.run es.length (p.withEdges es) = .next q → Pipe.run es'.length (p.withEdges es') = .next q' →
    q.finished = true → q'.finished = true → q = q') ∧
  (∀ (s t : State) (q : Pipe) (es es' : List Edge),
    resetFree es = true → resetFree es' = true →
    acceptedWords (wires es.length (s.withEdges es)) = acceptedWords es' →
    run es.length (s.withEdges es) = .next t →
    Pipe.run es'.length { toState := s.withEdges es', inFlight := [] } = .next q →
    t.finished = true → q.finished = true → q.toState = t)

/-- Rule R106: what a reset discards is exactly the responses that wait just before it and, in a `PIPE`
implementation, those of the commands in flight; they are a suffix of the responses owed; the words
delivered until then stay (log entry 15). -/
def Obligations.ResetLosesOnlyASuffix : Prop :=
  (∀ (s : State) before e after,
    s.edges = before ++ e :: after → resetFree before = true → e.rst = true →
    ∃ u t, run before.length s = .next u ∧ run (before.length + 1) s = .next t ∧
      t.delivered = u.delivered ∧
      t.delivered ++ u.responses =
        s.delivered ++ s.responses ++ (transactAll s.crc (commandSequence before.length s)).2 ∧
      t.crc = 0x00000000#32 ∧ t.responses = [] ∧ t.edges = after) ∧
  (∀ (p : Pipe) before e after,
    p.edges = before ++ e :: after → resetFree before = true → e.rst = true →
    ∃ u q, Pipe.run before.length p = .next u ∧ Pipe.run (before.length + 1) p = .next q ∧
      q.delivered = u.delivered ∧
      q.delivered ++ (u.responses ++ (transactAll u.crc (u.inFlight.map decode)).2) =
        p.delivered ++ p.responses ++
          (transactAll p.crc ((p.inFlight ++ acceptedWords before).map decode)).2 ∧
      q.crc = 0x00000000#32 ∧ q.inFlight = [] ∧ q.responses = [] ∧ q.edges = after)

/-- Rule R81: a `COMB` engine's `cmd_ready` is 1 at every edge, a reset edge among them, unless a response
is waiting, and a command it accepts has its effect at the accepting edge. It is the `PIPE`
implementation that advances at every edge and keeps nothing in flight. -/
def Obligations.CombinationalTakesOneEdge : Prop :=
  (∀ (s : State) e, e.conforms .comb s = true → s.responses = [] → s.cmdReady e = true) ∧
  (∀ (s : State) e later, s.edges = e :: later → s.accepts e = true →
    ∃ t, step s = .next t ∧ t.toEngine = (s.toEngine.step (decode e.command)).1) ∧
  (∀ (s : State) e later, s.edges = e :: later → e.advance = true → e.ready = s.cmdReady e →
    ∃ t, step s = .next t ∧
      Pipe.step { toState := s, inFlight := [] } = .next { toState := t, inFlight := [] })

/-- Rules R112 and R81: commands offered at consecutive edges, with no spacing, to an engine that never
waits all execute, each on the value its predecessor left, and every response is delivered. That a
command is accepted at the edge at which a response is taken is log entry 7. -/
def Obligations.BackToBackCommandsComplete : Prop :=
  ∀ (s : State) (commands : List Instr),
    s.responses = [] → s.edges = offerAll commands →
    run (commands.length + 1) s = .next
      { crc := (transactAll s.crc commands).1, responses := [],
        delivered := s.delivered ++ (transactAll s.crc commands).2, edges := [] }

/-- In a `PIPE` implementation, with a host that only takes responses and an engine that advances at every
edge, every command in flight completes and the run ends (rules R39 and R115 say that it does in finite
time). The bound of one edge for each command and one more is the model's, not the spec's: log entries 2
and 4. -/
def Obligations.EngineDrains : Prop :=
  ∀ p : Pipe, OneResponseWaits p.toState →
    p.edges = List.replicate (p.inFlight.length + 1) Edge.execute →
    Pipe.run (p.inFlight.length + 1) p = .next
      { crc := p.finalCrc, responses := [], delivered := p.allResponses, edges := [], inFlight := [] }

/-- Rule R43: while the host withholds `rsp_ready` from a waiting response, the engine is stuck, not
faulted: no command executes, and the response stays; in a `PIPE` implementation too. -/
def Obligations.StuckWhileResponseWithheld : Prop :=
  (∀ n (s : State), s.responses ≠ [] →
    (∀ e ∈ s.edges, e.rst = false ∧ e.rspReady = false) →
    ∃ t, run n s = .next t ∧ t.crc = s.crc ∧ t.responses = s.responses ∧
      t.delivered = s.delivered) ∧
  (∀ n (p : Pipe), p.responses ≠ [] →
    (∀ e ∈ p.edges, e.rst = false ∧ e.rspReady = false) →
    ∃ q, Pipe.run n p = .next q ∧ q.crc = p.crc ∧ q.responses = p.responses ∧
      q.delivered = p.delivered)

/-- Rule R90, whole: the table of causes is empty, every command and every step answers a next state, and
the engine fails to progress only when the host gives it no command or withholds `rsp_ready`. The
premises `e.ready = true` and `e.advance = true` leave out the engine's own delay, which is finite and
never a stop (log entries 2 and 11); that at most one response waits is the invariant of log entry 5. -/
def Obligations.NothingFaults : Prop :=
  (∀ _ : Fault, False) ∧
  (∀ i (s : State), Safe (exec i s)) ∧
  (∀ s : State, Safe (step s)) ∧
  (∀ n (s : State), Safe (run n s)) ∧
  (∀ n (p : Pipe), Safe (Pipe.run n p)) ∧
  (∀ (s : State) e, OneResponseWaits s → e.rst = false → e.ready = true → s.accepts e = false →
    e.cmdValid = false ∨ (s.responses ≠ [] ∧ e.rspReady = false)) ∧
  (∀ (p : Pipe) e later, OneResponseWaits p.toState → p.edges = e :: later → e.rst = false →
    e.advance = true → ((p.withEdges later).handshakes e).nextCommand e = none →
    (p.inFlight = [] ∧ e.accepts = false) ∨ (p.responses ≠ [] ∧ e.rspReady = false))

/-- Rule R114: once a run has ended, edges without reset change nothing: `CRC` keeps its last value, the
response sequence is complete, and the run stays ended; in a `PIPE` implementation too. Which offers
still belong to the run is the model's choice (log entry 21). -/
def Obligations.EndedRunStaysEnded : Prop :=
  (∀ n (s : State), s.finished = true → resetFree s.edges = true →
    ∃ t, run n s = .next t ∧ t.finished = true ∧ t.crc = s.crc ∧ t.delivered = s.delivered ∧
      t.edges = s.edges.drop n) ∧
  (∀ n (p : Pipe), p.finished = true → resetFree p.edges = true →
    ∃ q, Pipe.run n p = .next q ∧ q.finished = true ∧ q.crc = p.crc ∧ q.delivered = p.delivered ∧
      q.edges = p.edges.drop n)

/-- At most one response waits, after every step from every state in which that holds; in a `PIPE`
implementation too. -/
def Obligations.OneResponseWaitsIsKept : Prop :=
  (∀ s t : State, OneResponseWaits s → step s = .next t → OneResponseWaits t) ∧
  (∀ p q : Pipe, OneResponseWaits p.toState → p.step = .next q → OneResponseWaits q.toState)

/-- Rule R18: nothing but a reset or an executed command other than `READ` and `UPD0` changes `CRC`; without
a command the engine keeps it (rule R103). -/
def Obligations.OnlyCommandsAndResetChangeCrc : Prop :=
  (∀ s t : State, step s = .next t → t.crc ≠ s.crc →
    ∃ e later, s.edges = e :: later ∧
      (e.rst = true ∨
        (s.accepts e = true ∧ decode e.command ≠ .read ∧ decode e.command ≠ .upd0))) ∧
  (∀ p q : Pipe, p.step = .next q → q.crc ≠ p.crc →
    ∃ e later, p.edges = e :: later ∧
      (e.rst = true ∨
        ∃ w behind, ((p.withEdges later).handshakes e).nextCommand e = some (w, behind) ∧
          decode w ≠ .read ∧ decode w ≠ .upd0))

/-- Rule R14: the response sequence is an output; a step never reads it back. That it only extends it, at a
reset edge too, where the words already delivered stay, is deduced (log entry 15). -/
def Obligations.OutputsAreNeverReadBack : Prop :=
  (∀ (s t : State) other, step s = .next t →
    step { s with delivered := other } =
      .next { t with delivered := other ++ t.delivered.drop s.delivered.length } ∧
    s.delivered <+: t.delivered) ∧
  (∀ (p q : Pipe) other, p.step = .next q →
    Pipe.step { p with delivered := other } =
      .next { q with delivered := other ++ q.delivered.drop p.delivered.length } ∧
    p.delivered <+: q.delivered)

/-- Rule R100: N instances are N independent copies; each comes out of reset with `CRC = 0`, and after any
interleaving of their edges each is where its own edges alone take it. One edge of one instance at a
time, and an index beyond the chip changing nothing, are log entry 16. -/
def Obligations.InstancesAreIndependent : Prop :=
  (∀ cfg : Config, (Chip.reset cfg).length = cfg.instances ∧
    ∀ s ∈ Chip.reset cfg, s.crc = 0x00000000#32) ∧
  (∀ (c : Chip) (order : List Nat), ∃ d, c.run order = .next d ∧ d.length = c.length ∧
    ∀ k s, getElem? c k = some s → ∃ t, getElem? d k = some t ∧ run (order.count k) s = .next t)
end

