-- ==== Sys2Proof/Laws/Crc.lean ====
section
/-! SUPPORT. Laws/Crc.lean: the small lemmas of the pure functions. -/

namespace Sys2Proof.Machine

/-- Bit 0 clear: a plain shift (R58). -/
theorem bitstep_of_low_clear {r : Word} (h : r.getLsbD 0 = false) : bitstep r = r >>> 1 :=
  if_neg (by rw [h]; decide)

/-- Bit 0 set: shift and feedback (R58). -/
theorem bitstep_of_low_set {r : Word} (h : r.getLsbD 0 = true) :
    bitstep r = (r >>> 1) ^^^ polyRef :=
  if_pos h

/-- The masks invert (R9). -/
theorem xor_preInvert (s : Word) : s ^^^ preInvert = ~~~s := by
  rw [← BitVec.xor_allOnes]; rfl

theorem xor_postInvert (s : Word) : s ^^^ postInvert = ~~~s := by
  rw [← BitVec.xor_allOnes]; rfl

/-- `update` written with complements, as the command rules write it out. -/
theorem update_eq (s : Word) (c : Chunk) : update s c = ~~~(c.foldl bytestep (~~~s)) := by
  rw [update, xor_preInvert, xor_postInvert]

end Sys2Proof.Machine
end

