-- ==== Sys2Proof/Laws/Decode.lean ====
section
/-! SUPPORT. Laws/Decode.lean: the bits and the two fields of a command word (30_encoding.md R44), and the
bits of a lane (R46). -/

namespace Sys2Proof

/-- Bits 31 to 0 of a command word are `data`, bits 34 to 32 `op`. -/
theorem getLsbD_commandWord (op : BitVec 3) (data : Word) (k : Nat) :
    (commandWord op data).getLsbD k = if k < 32 then data.getLsbD k else op.getLsbD (k - 32) := by
  have h := BitVec.getLsbD_append (x := op) (y := data) (i := k)
  change (op ++ data : BitVec (3 + 32)).getLsbD k = _
  rw [h]

@[simp] theorem opOf_commandWord (op : BitVec 3) (data : Word) : opOf (commandWord op data) = op := by
  apply BitVec.eq_of_getLsbD_eq
  intro k hk
  have h32 : ¬ 32 + k < 32 := by omega
  rw [opOf, BitVec.getLsbD_extractLsb', getLsbD_commandWord, if_neg h32, Nat.add_sub_cancel_left]
  simp [hk]

@[simp] theorem dataOf_commandWord (op : BitVec 3) (data : Word) :
    dataOf (commandWord op data) = data := by
  apply BitVec.eq_of_getLsbD_eq
  intro k hk
  rw [dataOf, BitVec.getLsbD_extractLsb', getLsbD_commandWord, Nat.zero_add, if_pos hk]
  simp [hk]

/-- A word is its two fields. -/
theorem commandWord_fields (w : CommandWord) : commandWord (opOf w) (dataOf w) = w := by
  apply BitVec.eq_of_getLsbD_eq
  intro k hk
  rw [getLsbD_commandWord, opOf, dataOf, BitVec.getLsbD_extractLsb', BitVec.getLsbD_extractLsb']
  by_cases h : k < 32
  · simp [h]
  · have h3 : k - 32 < 3 := by omega
    have hk32 : 32 + (k - 32) = k := by omega
    simp [h, h3, hk32]

/-- Bit j of lane k is bit 8k+j of `data`. -/
theorem getLsbD_lane (data : Word) (k j : Nat) (h : j < 8) :
    (lane data k).getLsbD j = data.getLsbD (8 * k + j) := by
  rw [lane, BitVec.getLsbD_extractLsb']
  simp [h]

@[simp] theorem lane_or (d d' : Word) (k : Nat) : lane (d ||| d') k = lane d k ||| lane d' k := by
  apply BitVec.eq_of_getLsbD_eq
  intro j hj
  rw [BitVec.getLsbD_or, getLsbD_lane _ _ _ hj, getLsbD_lane _ _ _ hj, getLsbD_lane _ _ _ hj,
    BitVec.getLsbD_or]

/-- A byte put in a lane is what that lane holds. -/
theorem lane_inLane_same (b : Byte) (k : Nat) (hk : k < 4) : lane (inLane b k) k = b := by
  apply BitVec.eq_of_getLsbD_eq
  intro j hj
  have h32 : 8 * k + j < 32 := by omega
  rw [getLsbD_lane _ _ _ hj, inLane, BitVec.getLsbD_shiftLeft, BitVec.getLsbD_setWidth]
  have hge : ¬ 8 * k + j < 8 * k := by omega
  have h32' : j < 32 := by omega
  rw [Nat.add_sub_cancel_left]
  simp [h32, hge, h32']

/-- A byte put in a lane leaves the other lanes 0. -/
theorem lane_inLane_other (b : Byte) (k k' : Nat) (h : k ≠ k') : lane (inLane b k) k' = 0#8 := by
  apply BitVec.eq_of_getLsbD_eq
  intro j hj
  rw [getLsbD_lane _ _ _ hj, inLane, BitVec.getLsbD_shiftLeft, BitVec.getLsbD_setWidth]
  by_cases hlt : 8 * k' + j < 8 * k
  · simp [hlt]
  · have : 8 ≤ 8 * k' + j - 8 * k := by omega
    simp [BitVec.getLsbD_of_ge _ _ this]

section Arms

variable (d : Word)

theorem decode_op0 : decode (commandWord 0#3 d) = .upd0 := by simp [decode]
theorem decode_op1 : decode (commandWord 1#3 d) = .upd1 (lane d 0) := by simp [decode]
theorem decode_op2 : decode (commandWord 2#3 d) = .upd2 (lane d 0) (lane d 1) := by simp [decode]
theorem decode_op3 : decode (commandWord 3#3 d) = .upd3 (lane d 0) (lane d 1) (lane d 2) := by
  simp [decode]
theorem decode_op4 :
    decode (commandWord 4#3 d) = .upd4 (lane d 0) (lane d 1) (lane d 2) (lane d 3) := by
  simp [decode]
theorem decode_op5 : decode (commandWord 5#3 d) = .init := by simp [decode]
theorem decode_op6 : decode (commandWord 6#3 d) = .load d := by simp [decode]
theorem decode_op7 : decode (commandWord 7#3 d) = .read := by simp [decode]

end Arms

/-- The eight values of `op`. -/
theorem op_cases (op : BitVec 3) :
    op = 0#3 ∨ op = 1#3 ∨ op = 2#3 ∨ op = 3#3 ∨ op = 4#3 ∨ op = 5#3 ∨ op = 6#3 ∨ op = 7#3 := by
  revert op
  decide

end Sys2Proof
end

