-- ==== Sys2Proof/Laws/State.lean ====
section
/-! SUPPORT. Laws/State.lean: what each update of the state leaves in each field, so that no later proof
unfolds a record update. -/

namespace Sys2Proof.Machine

variable (s : State) (v : Word) (c : Chunk) (es : List Edge)

@[simp] theorem setCrc_crc : (s.setCrc v).crc = v := rfl
@[simp] theorem setCrc_responses : (s.setCrc v).responses = s.responses := rfl
@[simp] theorem setCrc_delivered : (s.setCrc v).delivered = s.delivered := rfl
@[simp] theorem setCrc_edges : (s.setCrc v).edges = s.edges := rfl

@[simp] theorem absorb_crc : (s.absorb c).crc = update s.crc c := rfl
@[simp] theorem absorb_responses : (s.absorb c).responses = s.responses := rfl
@[simp] theorem absorb_delivered : (s.absorb c).delivered = s.delivered := rfl
@[simp] theorem absorb_edges : (s.absorb c).edges = s.edges := rfl

@[simp] theorem respond_crc : (s.respond v).crc = s.crc := rfl
@[simp] theorem respond_responses : (s.respond v).responses = s.responses ++ [v] := rfl
@[simp] theorem respond_delivered : (s.respond v).delivered = s.delivered := rfl
@[simp] theorem respond_edges : (s.respond v).edges = s.edges := rfl

@[simp] theorem resetEngine_crc : s.resetEngine.crc = 0x00000000#32 := rfl
@[simp] theorem resetEngine_responses : s.resetEngine.responses = [] := rfl
@[simp] theorem resetEngine_delivered : s.resetEngine.delivered = s.delivered := rfl
@[simp] theorem resetEngine_edges : s.resetEngine.edges = s.edges := rfl

@[simp] theorem withEdges_crc : (s.withEdges es).crc = s.crc := rfl
@[simp] theorem withEdges_responses : (s.withEdges es).responses = s.responses := rfl
@[simp] theorem withEdges_delivered : (s.withEdges es).delivered = s.delivered := rfl
@[simp] theorem withEdges_edges : (s.withEdges es).edges = es := rfl


section PowerUp

variable (vs : List Word)

@[simp] theorem powerUp_crc : (State.powerUp v vs es).crc = v := rfl
@[simp] theorem powerUp_responses : (State.powerUp v vs es).responses = vs := rfl
@[simp] theorem powerUp_delivered : (State.powerUp v vs es).delivered = [] := rfl
@[simp] theorem powerUp_edges : (State.powerUp v vs es).edges = es := rfl

end PowerUp

/-- The architectural state is `CRC` alone: only a write of `CRC` or a reset changes it (10_state.md R12). -/
@[simp] theorem setCrc_toEngine : (s.setCrc v).toEngine = ⟨v⟩ := rfl
@[simp] theorem absorb_toEngine : (s.absorb c).toEngine = ⟨update s.crc c⟩ := rfl
@[simp] theorem respond_toEngine : (s.respond v).toEngine = s.toEngine := rfl
@[simp] theorem resetEngine_toEngine : s.resetEngine.toEngine = ⟨0x00000000#32⟩ := rfl
@[simp] theorem withEdges_toEngine : (s.withEdges es).toEngine = s.toEngine := rfl

/-- States with equal fields are equal. -/
theorem state_ext {s t : State} (hc : s.crc = t.crc) (hr : s.responses = t.responses)
    (hd : s.delivered = t.delivered) (he : s.edges = t.edges) : s = t := by
  obtain ⟨⟨c⟩, r, d, es⟩ := s
  obtain ⟨⟨c'⟩, r', d', es'⟩ := t
  simp_all

section Shown

variable (e : Edge)

@[simp] theorem shown_rst : (s.shown e).rst = e.rst := rfl
@[simp] theorem shown_command : (s.shown e).command = e.command := rfl
@[simp] theorem shown_accepts : (s.shown e).accepts = s.accepts e := rfl

end Shown

section Pipe

variable (p : Pipe) (e : Edge) (ws : List CommandWord)

@[simp] theorem pipe_reset_toState : Pipe.reset.toState = State.reset := rfl
@[simp] theorem pipe_reset_inFlight : Pipe.reset.inFlight = [] := rfl
@[simp] theorem pipe_powerUp_toState (vs : List Word) :
    (Pipe.powerUp v ws vs es).toState = State.powerUp v vs es := rfl
@[simp] theorem pipe_powerUp_inFlight (vs : List Word) : (Pipe.powerUp v ws vs es).inFlight = ws := rfl
@[simp] theorem pipe_withEdges_toState : (p.withEdges es).toState = p.toState.withEdges es := rfl
@[simp] theorem pipe_withEdges_inFlight : (p.withEdges es).inFlight = p.inFlight := rfl
@[simp] theorem pipe_withInFlight_toState : (p.withInFlight ws).toState = p.toState := rfl
@[simp] theorem pipe_withInFlight_inFlight : (p.withInFlight ws).inFlight = ws := rfl
@[simp] theorem pipe_resetEngine_toState : p.resetEngine.toState = p.toState.resetEngine := rfl
@[simp] theorem pipe_resetEngine_inFlight : p.resetEngine.inFlight = [] := rfl
@[simp] theorem pipe_deliver_toState : (p.deliver e).toState = p.toState.deliver e := rfl
@[simp] theorem pipe_deliver_inFlight : (p.deliver e).inFlight = p.inFlight := rfl
@[simp] theorem pipe_accept_toState : (p.accept e).toState = p.toState := rfl
@[simp] theorem pipe_accept_inFlight : (p.accept e).inFlight = p.inFlight ++ acceptedWords [e] := rfl
@[simp] theorem pipe_handshakes_toState : (p.handshakes e).toState = p.toState.deliver e := rfl
@[simp] theorem pipe_handshakes_inFlight :
    (p.handshakes e).inFlight = p.inFlight ++ acceptedWords [e] := rfl

/-- Pipes with equal engines and equal commands in flight are equal. -/
theorem pipe_ext {p q : Pipe} (hs : p.toState = q.toState) (hf : p.inFlight = q.inFlight) : p = q := by
  cases p; cases q; simp_all

end Pipe

end Sys2Proof.Machine
end

