-- ==== Sys2Proof/Laws/Ops.lean ====
section
/-! SUPPORT. Laws/Ops.lean: one lemma per operation on the ports that says everything it can do. -/

namespace Sys2Proof.Machine

variable (s : State) (e : Edge)

/-- A delivery moves the oldest response to the delivered ones, or nothing happens. -/
theorem deliver_cases :
    (∃ v vs, e.rspReady = true ∧ s.responses = v :: vs ∧
        s.deliver e = { s with responses := vs, delivered := s.delivered ++ [v] }) ∨
      ((e.rspReady = false ∨ s.responses = []) ∧ s.deliver e = s) := by
  unfold State.deliver
  cases hr : e.rspReady <;> cases hs : s.responses <;> simp

@[simp] theorem deliver_crc : (s.deliver e).crc = s.crc := by
  rcases deliver_cases s e with ⟨v, vs, -, -, h⟩ | ⟨-, h⟩ <;> simp [h]

@[simp] theorem deliver_edges : (s.deliver e).edges = s.edges := by
  rcases deliver_cases s e with ⟨v, vs, -, -, h⟩ | ⟨-, h⟩ <;> simp [h]

/-- What waits after a delivery is what `cmd_ready` looks at. -/
@[simp] theorem deliver_responses : (s.deliver e).responses = s.stillWaiting e := by
  unfold State.deliver State.stillWaiting
  cases hr : e.rspReady <;> cases hs : s.responses <;> simp [hs]

/-- A delivery looks at the response port alone. -/
theorem deliver_withEdges (es : List Edge) :
    (s.withEdges es).deliver e = (s.deliver e).withEdges es := by
  obtain ⟨⟨c⟩, r, d, es'⟩ := s
  cases r <;> cases h : e.rspReady <;> simp [State.deliver, State.withEdges, h]

/-- A delivery neither drops nor duplicates nor reorders a response. -/
theorem deliver_keeps_stream :
    (s.deliver e).delivered ++ (s.deliver e).responses = s.delivered ++ s.responses := by
  rcases deliver_cases s e with ⟨v, vs, -, hs, h⟩ | ⟨-, h⟩ <;> simp_all

/-- `cmd_ready` is 1 exactly if the engine is willing and no response stays. -/
theorem cmdReady_eq_true : s.cmdReady e = true ↔ e.ready = true ∧ s.stillWaiting e = [] := by
  simp [State.cmdReady]

/-- A command is accepted exactly if no reset comes, one is offered and `cmd_ready` is 1. -/
theorem accepts_eq_true :
    s.accepts e = true ↔ e.rst = false ∧ e.cmdValid = true ∧ s.cmdReady e = true := by
  simp [State.accepts, and_assoc]

/-- A `PIPE` implementation executes a command exactly if it advances, no response waits and one is in flight. -/
theorem nextCommand_eq_some {p : Pipe} {e : Edge} {w : CommandWord} {ws : List CommandWord} :
    p.nextCommand e = some (w, ws) ↔
      e.advance = true ∧ p.responses = [] ∧ p.inFlight = w :: ws := by
  unfold Pipe.nextCommand
  cases e.advance <;> cases hr : p.responses <;> cases p.inFlight <;> simp

/-- Why a `PIPE` implementation executes no command at an edge. -/
theorem nextCommand_eq_none {p : Pipe} {e : Edge} :
    p.nextCommand e = none ↔
      e.advance = false ∨ p.responses ≠ [] ∨ p.inFlight = [] := by
  unfold Pipe.nextCommand
  cases e.advance <;> cases hr : p.responses <;> cases p.inFlight <;> simp

end Sys2Proof.Machine
end

