-- ==== Sys2Proof/Laws/PerInstr.lean ====
section
/-! SUPPORT. Laws/PerInstr.lean: a family of statements made command by command. `EncodedFields`: the two
fields of a command's word are its opcode and its operand bits (30_encoding.md R44, R47, R52). -/

namespace Sys2Proof.Laws.EncodedFields

/-- The fields of the encoded word. -/
def Statement (i : Instr) : Prop := opOf (encode i) = i.opcode ∧ dataOf (encode i) = i.dataField

/-- The fields of any encoded word, by the laws of a word's fields. -/
theorem fields (i : Instr) : Statement i :=
  ⟨opOf_commandWord i.opcode i.dataField, dataOf_commandWord i.opcode i.dataField⟩

theorem upd0 : Statement .upd0 := fields _
theorem upd1 (b0 : Byte) : Statement (.upd1 b0) := fields _
theorem upd2 (b0 b1 : Byte) : Statement (.upd2 b0 b1) := fields _
theorem upd3 (b0 b1 b2 : Byte) : Statement (.upd3 b0 b1 b2) := fields _
theorem upd4 (b0 b1 b2 b3 : Byte) : Statement (.upd4 b0 b1 b2 b3) := fields _
theorem init : Statement .init := fields _
theorem load (v : Word) : Statement (.load v) := fields _
theorem read : Statement .read := fields _

end Sys2Proof.Laws.EncodedFields
end

