-- ==== Sys2Proof/Laws/Step.lean ====
section
/-! SUPPORT. Laws/Step.lean: what each meaning answers, and everything one step can do. -/

namespace Sys2Proof.Machine

/-- Every command answers a next state. -/
theorem exec_next (i : Instr) (s : State) : ∃ t, exec i s = .next t := by
  cases i <;> exact ⟨_, rfl⟩

/-- A command changes nothing but `crc`, and `READ` nothing but the responses. -/
theorem exec_cases {i : Instr} {s t : State} (h : exec i s = .next t) :
    (i = .read ∧ t = s.respond s.crc) ∨ (i ≠ .read ∧ ∃ v, t = s.setCrc v) := by
  cases i <;> cases h <;> first | exact .inl ⟨rfl, rfl⟩ | exact .inr ⟨by simp, _, rfl⟩

section Equations

variable {s : State} {e : Edge} {later : List Edge}

/-- No edge to come: nothing happens. -/
theorem step_no_edge (h : s.edges = []) : step s = .next s := by
  simp only [step, h]

/-- An edge with `rst = 1`: the reset, whatever the other wires carry. -/
theorem step_reset_edge (h : s.edges = e :: later) (hr : e.rst = true) :
    step s = .next (s.withEdges later).resetEngine := by
  simp only [step, h, hr]

/-- An edge at which no command is accepted: a delivery at most. -/
theorem step_accepts_none (h : s.edges = e :: later) (hr : e.rst = false) (ha : s.accepts e = false) :
    step s = .next ((s.withEdges later).deliver e) := by
  simp only [step, h, hr, ha]

/-- An edge at which a command is accepted: it executes, behind the delivery. -/
theorem step_executes (h : s.edges = e :: later) (ha : s.accepts e = true) :
    step s = exec (decode e.command) ((s.withEdges later).deliver e) := by
  have hr : e.rst = false := ((accepts_eq_true s e).mp ha).1
  simp only [step, h, hr, ha]

end Equations

/-- Everything one step can do: nothing without an edge, a reset, an edge at which no command is accepted,
or one at which the accepted command executes. -/
theorem step_cases (s : State) :
    (s.edges = [] ∧ step s = .next s) ∨
      ∃ e later, s.edges = e :: later ∧
        ((e.rst = true ∧ step s = .next (s.withEdges later).resetEngine) ∨
          (e.rst = false ∧ s.accepts e = false ∧ step s = .next ((s.withEdges later).deliver e)) ∨
          (e.rst = false ∧ s.accepts e = true ∧
            step s = exec (decode e.command) ((s.withEdges later).deliver e))) := by
  cases h : s.edges with
  | nil => exact .inl ⟨rfl, step_no_edge h⟩
  | cons e later =>
    refine .inr ⟨e, later, rfl, ?_⟩
    cases hr : e.rst with
    | true => exact .inl ⟨rfl, step_reset_edge h hr⟩
    | false =>
      cases ha : s.accepts e with
      | false => exact .inr (.inl ⟨rfl, rfl, step_accepts_none h hr ha⟩)
      | true => exact .inr (.inr ⟨rfl, rfl, step_executes h ha⟩)

/-- Every step answers a next state. -/
theorem step_next (s : State) : ∃ t, step s = .next t := by
  obtain ⟨-, h⟩ | ⟨e, later, -, ⟨-, h⟩ | ⟨-, -, h⟩ | ⟨-, -, h⟩⟩ := step_cases s
  · exact ⟨_, h⟩
  · exact ⟨_, h⟩
  · exact ⟨_, h⟩
  · rw [h]; exact exec_next _ _

/-- The wires of a run, one edge at a time. -/
theorem wires_succ {s t : State} {e : Edge} {later : List Edge} (n : Nat) (h : s.edges = e :: later)
    (ht : step s = .next t) : wires (n + 1) s = s.shown e :: wires n t := by
  simp only [wires, h, ht]

/-- A word placed by the host is what the very next step executes, unless two responses wait, which no
run reaches. -/
theorem step_withFetchWord {s : State} (nbits w : Nat) (h : s.responses.length ≤ 1) :
    step (s.withFetchWord nbits w) =
      exec (decode (tableWord nbits w)) (s.deliver (Edge.offer (tableWord nbits w))) := by
  have hs : s.stillWaiting (Edge.offer (tableWord nbits w)) = [] := by
    change s.responses.tail = []
    cases hr : s.responses with
    | nil => rfl
    | cons v vs => simpa [hr] using h
  have ha : (s.withFetchWord nbits w).accepts (Edge.offer (tableWord nbits w)) = true :=
    (accepts_eq_true _ _).mpr ⟨rfl, rfl, (cmdReady_eq_true _ _).mpr ⟨rfl, hs⟩⟩
  rw [step_executes (later := s.edges) rfl ha]
  congr 1
  exact congrArg decode (commandWord_fields _)

section Pipe

/-- A command on a `PIPE` implementation: the engine's `exec`, with the commands in flight left alone. -/
theorem pipe_execute_eq {i : Instr} {p : Pipe} {t : State} (h : exec i p.toState = .next t) :
    Pipe.execute i p = .next { p with toState := t } := by
  simp only [Pipe.execute, h]

/-- Every command on a `PIPE` implementation answers a next state. -/
theorem pipe_execute_next (i : Instr) (p : Pipe) :
    ∃ t, exec i p.toState = .next t ∧ Pipe.execute i p = .next { p with toState := t } :=
  (exec_next i p.toState).imp fun _ h => ⟨h, pipe_execute_eq h⟩

/-- Everything one step of a `PIPE` implementation can do: nothing without an edge, a reset, an edge at
which no command executes, or one at which the oldest in flight does. -/
theorem pipe_step_cases (p : Pipe) :
    (p.edges = [] ∧ p.step = .next p) ∨
      ∃ e later, p.edges = e :: later ∧
        ((e.rst = true ∧ p.step = .next (p.withEdges later).resetEngine) ∨
          (e.rst = false ∧ ((p.withEdges later).handshakes e).nextCommand e = none ∧
            p.step = .next ((p.withEdges later).handshakes e)) ∨
          (e.rst = false ∧ ∃ w ws,
            ((p.withEdges later).handshakes e).nextCommand e = some (w, ws) ∧
              p.step =
                Pipe.execute (decode w) (((p.withEdges later).handshakes e).withInFlight ws))) := by
  cases h : p.edges with
  | nil => exact .inl ⟨rfl, by simp only [Pipe.step, h]⟩
  | cons e later =>
    refine .inr ⟨e, later, rfl, ?_⟩
    cases hr : e.rst with
    | true => exact .inl ⟨rfl, by simp only [Pipe.step, h, hr]⟩
    | false =>
      cases hn : ((p.withEdges later).handshakes e).nextCommand e with
      | none => exact .inr (.inl ⟨rfl, rfl, by simp only [Pipe.step, h, hr, hn]⟩)
      | some c => exact .inr (.inr ⟨rfl, c.1, c.2, rfl, by simp only [Pipe.step, h, hr, hn]⟩)

end Pipe

end Sys2Proof.Machine
end

