-- ==== Sys2Proof/Tests/Slice0.lean ====
section
/-! SUPPORT. Tests/Slice0.lean: small tests, their expected values taken from 95_test_vectors.md (V, E, P)
and the examples of the command rules; and, for each statement with hypotheses, a witness that meets
them together (witness_…). -/

namespace Sys2Proof.Tests

open Sys2Proof.Machine

/-- The next state of an outcome, if there is one. -/
def nextOf (o : Host.Outcome State Fault Refusal) : Option State :=
  match o with
  | .next t => some t
  | .fault _ => none
  | .refused _ => none

/-- The next state of an outcome of a `PIPE` implementation, if there is one. -/
def pipeOf (o : Host.Outcome Pipe Fault Refusal) : Option Pipe :=
  match o with
  | .next q => some q
  | .fault _ => none
  | .refused _ => none

/-- An engine at rest with a value in `CRC`. -/
def withCrc (v : Word) : State := { State.reset with crc := v }

/-- `CRC` and the responses after a command word on an engine at rest. -/
def after (v : Word) (w : CommandWord) : Option (Word × List Word) :=
  (nextOf (exec (decode w) (withCrc v))).map fun t => (t.crc, t.responses)

/-! ### Well-formedness refuses what is ill formed -/

theorem test_command_too_wide : commandFits (2 ^ 35) = false := by decide
theorem test_command_widest : commandFits (2 ^ 35 - 1) = true := by decide
theorem test_byte_too_wide : byteFits 256 = false := by decide
theorem test_byte_widest : byteFits 255 = true := by decide
theorem test_word_too_wide : wordFits (2 ^ 32) = false := by decide
theorem test_five_lanes : lanesFit [1, 2, 3, 4, 5] = false := by decide
theorem test_lane_too_wide : lanesFit [1, 256] = false := by decide
theorem test_four_lanes : lanesFit [0, 255, 0, 255] = true := by decide
theorem test_dropped_offer :
    hostHolds [{ Edge.offer 0x100000031#35 with ready := false }, Edge.execute] = false := by decide
theorem test_changed_offer :
    hostHolds [{ Edge.offer 0x100000031#35 with ready := false }, Edge.offer 0x100000032#35] =
      false := by decide

/-! ### Decoding: words written out bit by bit from 30_encoding.md R44, R45 and R47 -/

theorem test_decode_upd0 : decode 0b000_10101011110011011110111100000001#35 = .upd0 := by decide
theorem test_decode_upd1 :
    decode 0b001_11111111111111111111111100110001#35 = .upd1 0x31#8 := by decide
theorem test_decode_upd2 :
    decode 0b010_10101011000000000011001100110010#35 = .upd2 0x32#8 0x33#8 := by decide
theorem test_decode_upd3 :
    decode 0b011_00000000001110010011100000110111#35 = .upd3 0x37#8 0x38#8 0x39#8 := by decide
theorem test_decode_upd4 :
    decode 0b100_00111000001101110011011000110101#35 = .upd4 0x35#8 0x36#8 0x37#8 0x38#8 := by decide
theorem test_decode_init : decode 0b101_00010010001101000101011001111000#35 = .init := by decide
theorem test_decode_load :
    decode 0b110_11110110001110101111010011101110#35 = .load 0xF63AF4EE#32 := by decide
theorem test_decode_read : decode 0b111_11111111111111111111111111111111#35 = .read := by decide
theorem test_table_word : decodeTableWord 40 0x144332211 = some (.upd1 0x11#8) := by decide
theorem test_table_word_too_wide : decodeTableWord 40 0x800000000 = none := by decide
theorem test_assemble :
    assemble (['U', 'P', 'D', '2', ' '] ++ [singleQuote, '2', singleQuote, ' ', '0', 'x', '3', '3']) =
      some [0x200003332#35] := by decide
theorem test_assemble_raw_too_wide :
    assemble (['.', 'c', 'm', 'd', ' ', '0', 'x', '8'] ++ ['0', '0', '0', '0', '0', '0', '0', '0']) =
      none := by decide

/-! ### The algorithm: the document's own values, E2 and E3, and the traces of V14 and V15 -/

theorem test_checksum_zero_byte : checksum [0x00#8] = 0x527D5351#32 := by decide
theorem test_checksum_nine_digits :
    checksum [0x31#8, 0x32#8, 0x33#8, 0x34#8, 0x35#8, 0x36#8, 0x37#8, 0x38#8, 0x39#8] =
      0xE3069283#32 := by decide +kernel
theorem test_bitstep_feedback : bitstep 0xFC72D93B#32 = 0xFCCF57E5#32 := by decide
theorem test_bytestep_no_feedback : bytestep 0xFFFFFFFF#32 0xFF#8 = 0x00FFFFFF#32 := by decide
theorem test_word_form : wordForm 2 0x90F599E3#32 0xAB003332#32 = 0x107B2FB2#32 := by decide +kernel
theorem test_zero_checksum_message : messageOf 0#32 = [0xAB#8, 0x9B#8, 0xE0#8, 0x9B#8] := by decide +kernel

/-! ### The commands: V46 to V73 -/

theorem test_upd0 : after 0xE3069283#32 0x044332211#35 = some (0xE3069283#32, []) := by decide
theorem test_upd1 : after 0xE3069283#32 0x144332211#35 = some (0x210DD923#32, []) := by decide
theorem test_upd2 : after 0xE3069283#32 0x244332211#35 = some (0xA037DD8B#32, []) := by decide +kernel
theorem test_upd3 : after 0xE3069283#32 0x344332211#35 = some (0x6A114E8A#32, []) := by decide +kernel
theorem test_upd4 : after 0xE3069283#32 0x444332211#35 = some (0x3DE2DBFC#32, []) := by decide +kernel
theorem test_upd4_lane_order : after 0#32 0x431323334#35 = some (0xD34F71B0#32, []) := by decide +kernel
theorem test_init : after 0xFFFFFFFF#32 0x5FFFFFFFF#35 = some (0x00000000#32, []) := by decide
theorem test_load : after 0x8C28B28A#32 0x6F63AF4EE#35 = some (0xF63AF4EE#32, []) := by decide
theorem test_read : after 0x107B2FB2#32 0x7FFFFFFFF#35 = some (0x107B2FB2#32, [0x107B2FB2#32]) := by
  decide

/-! ### One step -/

/-- The first command after reset, placed by the host (V57). -/
theorem test_step_first_command :
    nextOf (step (State.reset.withFetchWord 40 0x1000000FF)) = some (withCrc 0xFF000000#32) := by decide

/-- R93: at one edge the waiting response is delivered and the offered `READ` accepted and executed. -/
theorem test_step_delivers_and_reads :
    nextOf (step { withCrc 0xE3069283#32 with
      responses := [0x12345678#32], edges := [Edge.offer 0x700000000#35] }) =
    some { withCrc 0xE3069283#32 with
      responses := [0xE3069283#32], delivered := [0x12345678#32] } := by decide

/-- R31, R104: a reset edge loses the waiting response, and the command offered at it is not accepted. -/
theorem test_step_reset_wins :
    nextOf (step { withCrc 0xE3069283#32 with
      responses := [0x12345678#32],
      edges := [{ Edge.offer 0x600000001#35 with rst := true }] }) = some State.reset := by decide

/-- R43: a command does not execute behind a response the host does not take. -/
theorem test_step_stuck :
    nextOf (step { withCrc 0xE3069283#32 with
      responses := [0xE3069283#32],
      edges := [{ Edge.offer 0x500000000#35 with rspReady := false }] }) =
    some { withCrc 0xE3069283#32 with responses := [0xE3069283#32] } := by decide

/-- R106: in a `PIPE` implementation a reset edge loses the command in flight as well. -/
theorem test_pipe_reset_wins :
    pipeOf (Pipe.step { withCrc 0xE3069283#32 with
      inFlight := [0x700000000#35], responses := [0x12345678#32],
      edges := [{ Edge.offer 0x600000001#35 with rst := true }] }) = some Pipe.reset := by decide

/-- R38, R82: a `PIPE` implementation executes the older command while it accepts the younger. -/
theorem test_pipe_in_order :
    pipeOf (Pipe.step { withCrc 0xE3069283#32 with
      inFlight := [0x700000000#35], edges := [Edge.offer 0x500000000#35] }) =
    some { withCrc 0xE3069283#32 with
      inFlight := [0x500000000#35], responses := [0xE3069283#32] } := by decide

/-! ### Witnesses -/

theorem witness_every_opcode :
    opOf 0x044332211#35 = 0#3 ∧ opOf 0x144332211#35 = 1#3 ∧ opOf 0x244332211#35 = 2#3 ∧
    opOf 0x344332211#35 = 3#3 ∧ opOf 0x444332211#35 = 4#3 ∧ opOf 0x544332211#35 = 5#3 ∧
    opOf 0x644332211#35 = 6#3 ∧ opOf 0x744332211#35 = 7#3 := by decide

theorem witness_upd3_lane3_ignored :
    ∀ k < 3, lane 0x44332211#32 k = lane 0xFF332211#32 k := by decide

theorem witness_init_at_zero : State.reset.crc = 0x00000000#32 := rfl

/-- Update commands with every byte count, and the reads R16 lets stand between them. -/
theorem witness_update_commands :
    (∀ i ∈ [Instr.upd0, .upd1 0x31#8, .upd2 0x32#8 0x33#8, .upd3 0#8 0#8 0#8, .upd4 1#8 2#8 3#8 4#8],
      isUpdate i = true) ∧
    (∀ i ∈ [Instr.upd1 0x31#8, .read, .upd0], isUpdate i = true ∨ i = .read) := by decide

theorem witness_read_frame :
    nextOf (exec .read (withCrc 5#32)) = some { withCrc 5#32 with responses := [5#32] } ∧
    nextOf (exec .upd0 (withCrc 5#32)) = some (withCrc 5#32) ∧ Instr.init ≠ .read := by decide

theorem witness_idempotent_kinds :
    isUpdate .init = false ∧ isUpdate (.upd1 0#8) = true ∧ Instr.upd1 0#8 ≠ .upd0 := by decide

theorem witness_well_formed : (Instr.load 0xFFFFFFFF#32).wellFormed = true := rfl

/-- V63: two spellings of one command. -/
theorem witness_ignored_bits :
    opOf 0x1FFFFFF31#35 = opOf 0x100000031#35 ∧
    dataOf 0x1FFFFFF31#35 &&& usedBits (opOf 0x1FFFFFF31#35) =
      dataOf 0x100000031#35 &&& usedBits (opOf 0x1FFFFFF31#35) ∧
    (0x1FFFFFF31#35 : CommandWord) ≠ 0x100000031#35 := by decide

/-- Clause by clause of the lane statement, at its bounds. -/
theorem witness_lanes :
    (lane 0x80000001#32 3).getLsbD 7 = true ∧ (lane 0x80000001#32 0).getLsbD 0 = true ∧
    isUpdate (decode 0x044332211#35) = true ∧ isUpdate (decode 0x444332211#35) = true ∧
    (zext32 0xFF#8).getLsbD 7 = true ∧ (zext32 0xFF#8).getLsbD 8 = false := by decide

theorem witness_bit_zero :
    (0x00000001#32).getLsbD 0 = true ∧ (0x80000000#32).getLsbD 0 = false := by decide

theorem witness_four_byte_message : (messageOf 0x527D5351#32).length = 4 := by decide

theorem witness_ascii_text : ['1', '2'].mapM asciiCode = some [0x31#8, 0x32#8] := by decide

/-- An edge that accepts a command; and in a `PIPE` implementation while another is in flight and is
executed. -/
theorem witness_step_runs :
    (withCrc 1#32).accepts (Edge.offer 0x100000031#35) = true ∧
    (withCrc 1#32).responses = [] ∧
    (Edge.offer 0x100000031#35).rst = false ∧ (Edge.offer 0x100000031#35).advance = true ∧
    (Edge.offer 0x100000031#35).accepts = true ∧
    (({ withCrc 1#32 with inFlight := [0x500000000#35] } : Pipe).handshakes
      (Edge.offer 0x100000031#35)).responses = [] ∧
    (({ withCrc 1#32 with inFlight := [0x500000000#35] } : Pipe).handshakes
      (Edge.offer 0x100000031#35)).inFlight = [0x500000000#35, 0x100000031#35] := by decide

/-- R29, R43: an offer is not accepted by an engine that is not willing, nor behind a response the host does
not take. -/
theorem witness_not_accepted :
    (withCrc 1#32).accepts { Edge.offer 0x100000031#35 with ready := false } = false ∧
    ({ withCrc 1#32 with responses := [7#32] } : State).accepts
      { Edge.offer 0x100000031#35 with rspReady := false } = false := by decide

/-- A held offer: two edges without `cmd_ready`, then one with it. -/
theorem witness_held_offer :
    hostHolds ({ Edge.offer 0x100000031#35 with ready := false } ::
      ([{ Edge.offer 0x100000031#35 with ready := false }] ++ [Edge.offer 0x100000031#35])) = true ∧
    resetFree ({ Edge.offer 0x100000031#35 with ready := false } ::
      ([{ Edge.offer 0x100000031#35 with ready := false }] ++ [Edge.offer 0x100000031#35])) = true := by
  decide

/-- A response that waits, at an edge at which it is taken, at one at which it is not, and at one at which an
acceptance coincides with its delivery (R93); and a `PIPE` implementation that accepts at such an edge and
executes later. -/
theorem witness_waiting_response :
    nextOf (step { withCrc 1#32 with responses := [7#32], edges := [Edge.execute] }) =
      some { withCrc 1#32 with delivered := [7#32] } ∧
    nextOf (step { withCrc 1#32 with
      responses := [7#32], edges := [{ Edge.execute with rspReady := false }] }) =
      some { withCrc 1#32 with responses := [7#32] } ∧
    nextOf (step { withCrc 1#32 with responses := [7#32], edges := [Edge.offer 0x500000000#35] }) =
      some { withCrc 0#32 with delivered := [7#32] } ∧
    pipeOf (Pipe.step { withCrc 1#32 with
      responses := [7#32], inFlight := [],
      edges := [{ Edge.offer 0x100000031#35 with advance := false }] }) =
      some { withCrc 1#32 with delivered := [7#32], inFlight := [0x100000031#35] } := by decide

/-- Reset edges in a row, and an accepting edge behind one. -/
theorem witness_reset_edges :
    (∀ e ∈ [Edge.reset, Edge.reset], e.rst = true) ∧
    (Edge.offer 0x700000000#35).accepts = true ∧ (Edge.offer 0x700000000#35).advance = true ∧
    nextOf (run 2 { withCrc 9#32 with edges := [Edge.reset, Edge.offer 0x700000000#35] }) =
      some { State.reset with responses := [0x00000000#32] } := by decide

theorem witness_power_up :
    nextOf (step (State.powerUp 0xDEADBEEF#32 [7#32, 8#32] [Edge.reset])) = some State.reset ∧
    pipeOf (Pipe.powerUp 0xDEADBEEF#32 [0x700000000#35] [7#32, 8#32] [Edge.reset]).step =
      some Pipe.reset := by decide

/-- Two timings of one command sequence in a `PIPE` implementation: at once, and with stalls before
acceptance and execution. -/
def promptEdges : List Edge := [Edge.offer 0x700000000#35, Edge.execute]
def stalledEdges : List Edge :=
  [{ Edge.offer 0x700000000#35 with ready := false },
    { Edge.offer 0x700000000#35 with advance := false }, Edge.execute, Edge.execute]

theorem witness_two_timings :
    resetFree promptEdges = true ∧ resetFree stalledEdges = true ∧
    acceptedWords promptEdges = acceptedWords stalledEdges ∧
    (pipeOf (Pipe.run 2 { toState := (withCrc 3#32).withEdges promptEdges, inFlight := [] })).map
      Pipe.finished = some true ∧
    (pipeOf (Pipe.run 4 { toState := (withCrc 3#32).withEdges stalledEdges, inFlight := [] })).map
      Pipe.finished = some true := by decide

/-- The model itself over the prompt edges accepts the same command and finishes. -/
theorem witness_model_timing :
    acceptedWords (wires 2 ((withCrc 3#32).withEdges promptEdges)) = acceptedWords stalledEdges ∧
    (nextOf (run 2 ((withCrc 3#32).withEdges promptEdges))).map State.finished = some true := by decide

/-- R38: what a run comes to (here the response 3 and `CRC` 3), kept by a step that accepts and delays. -/
theorem witness_promised :
    resetFree [{ Edge.offer 0x700000000#35 with advance := false }] = true ∧
    (pipeOf (Pipe.step { withCrc 3#32 with
      inFlight := [], edges := [{ Edge.offer 0x700000000#35 with advance := false }] })).map
      Pipe.promised = some (3#32, [3#32]) := by decide

/-- R106: a reset behind a `READ` whose response is not taken. -/
theorem witness_reset_after_read :
    ({ withCrc 3#32 with edges := [Edge.offer 0x700000000#35] ++ Edge.reset :: [] } : State).edges =
      [Edge.offer 0x700000000#35] ++ Edge.reset :: [] ∧
    resetFree [Edge.offer 0x700000000#35] = true ∧ Edge.reset.rst = true := by decide

/-- R81: an edge a `COMB` engine may show, with no response waiting and with one being taken; a reset edge
with `cmd_ready` 0 and no response waiting is none. -/
theorem witness_comb_edges :
    (Edge.offer 0x100000031#35).conforms .comb (withCrc 1#32) = true ∧
    (Edge.offer 0x100000031#35).conforms .comb { withCrc 1#32 with responses := [7#32] } = true ∧
    Edge.reset.conforms .comb (withCrc 1#32) = true ∧
    { Edge.reset with ready := false }.conforms .comb (withCrc 1#32) = false ∧
    (Edge.offer 0x100000031#35).advance = true ∧
    (Edge.offer 0x100000031#35).ready = (withCrc 1#32).cmdReady (Edge.offer 0x100000031#35) ∧
    (withCrc 1#32).responses = [] := by decide

theorem witness_back_to_back :
    nextOf (run 3 { withCrc 0xE3069283#32 with edges := offerAll [.read, .init] }) =
      some { withCrc 0x00000000#32 with delivered := [0xE3069283#32] } := by decide

theorem witness_drain :
    pipeOf (Pipe.run 2 { withCrc 3#32 with
      inFlight := [0x700000000#35], responses := [7#32],
      edges := List.replicate 2 Edge.execute }) =
      some { withCrc 3#32 with delivered := [7#32, 3#32], inFlight := [] } := by decide

/-- A response the host does not take, with a command offered behind it. -/
def withheld : State :=
  { withCrc 3#32 with
    responses := [3#32]
    edges := [{ Edge.offer 0x100000031#35 with rspReady := false }] }

theorem witness_withheld :
    withheld.responses ≠ [] ∧ ∀ e ∈ withheld.edges, e.rst = false ∧ e.rspReady = false := by decide

/-- An edge at which nothing is offered, and one at which an offer meets a response the host does not take;
and the two in a `PIPE` implementation. -/
theorem witness_nothing_executes :
    OneResponseWaits State.reset ∧ State.reset.accepts Edge.execute = false ∧
    Edge.execute.rst = false ∧ Edge.execute.ready = true ∧ Edge.execute.advance = true ∧
    OneResponseWaits withheld ∧
    withheld.accepts { Edge.offer 0x100000031#35 with rspReady := false } = false ∧
    (Pipe.reset.handshakes Edge.execute).nextCommand Edge.execute = none ∧
    (({ withheld with inFlight := [0x500000000#35] } : Pipe).handshakes
      { Edge.execute with rspReady := false }).nextCommand { Edge.execute with rspReady := false } =
      none :=
  ⟨Nat.zero_le 1, by decide, rfl, rfl, rfl, Nat.le_refl 1, by decide, by decide, by decide⟩

/-- R16: `INIT` and update commands with a read between them, offered to an engine at rest (the `CRC` of
each prefix from V35). -/
theorem witness_item_offered :
    (∀ i ∈ [Instr.upd1 0x31#8, .read, .upd0], isUpdate i = true ∨ i = .read) ∧
    (withCrc 5#32).responses = [] ∧
    (nextOf (run 5 ((withCrc 5#32).withEdges
      (offerAll (.init :: [.upd1 0x31#8, .read, .upd0]))))).map (fun s => s.crc) = some 0x90F599E3#32 := by
  decide

/-- R114: a run that has ended, with an idle edge still to come; with a command to come it has not. -/
theorem witness_ended_run :
    ((withCrc 3#32).withEdges [Edge.execute]).finished = true ∧
    resetFree ((withCrc 3#32).withEdges [Edge.execute]).edges = true ∧
    ((withCrc 3#32).withEdges [Edge.offer 0x700000000#35]).finished = false ∧
    ({ (withCrc 3#32).withEdges [Edge.execute] with inFlight := [] } : Pipe).finished = true := by decide

/-- `CRC` changed by a command, and by a reset. -/
theorem witness_crc_changes :
    nextOf (step { withCrc 9#32 with edges := [Edge.offer 0x500000000#35] }) = some State.reset ∧
    nextOf (step { withCrc 9#32 with edges := [Edge.reset] }) = some State.reset ∧
    pipeOf (Pipe.step { withCrc 9#32 with inFlight := [0x500000000#35], edges := [Edge.execute] }) =
      some Pipe.reset ∧
    State.reset.crc ≠ (withCrc 9#32).crc := by decide

/-- A chip of two instances. -/
theorem witness_chip :
    (getElem? ([State.reset, withCrc 9#32] : Chip) 1).map (fun s => s.crc) = some 9#32 := by decide

end Sys2Proof.Tests
end

section
/-! PROOFS. The transaction level: what `exec` answers, in the terms of `transact` (00_scope.md R11,
10_state.md R12). -/

namespace Sys2Proof.Machine

/-- `READ` alone responds (20_memory.md R30, 41_state_transfer.md R76). -/
theorem transact_response_of_ne_read {i : Instr} (h : i ≠ .read) (crc : Word) :
    (transact crc i).2 = none := by
  cases i with
  | read => exact absurd rfl h
  | _ => rfl

/-- A command that does not respond is one write of `CRC`. -/
theorem exec_eq_setCrc_of_ne_read {i : Instr} (h : i ≠ .read) (s : State) :
    exec i s = .next (s.setCrc (transact s.crc i).1) := by
  cases i with
  | read => exact absurd rfl h
  | _ => rfl

/-- The ports-and-time machine and the transaction level give every command one meaning: `READ` keeps
`CRC` and appends it to the responses, any other command writes `CRC` and appends nothing. -/
theorem exec_eq_transact (i : Instr) (s : State) :
    exec i s =
      .next { s with
        crc := (transact s.crc i).1
        responses := s.responses ++ (transact s.crc i).2.toList } := by
  by_cases h : i = .read
  · subst h
    rfl
  · rw [exec_eq_setCrc_of_ne_read h, transact_response_of_ne_read h, Option.toList_none,
      List.append_nil]
    rfl

/-- A command's next state holds the engine that `Engine.step` gives, and its response behind those
that wait. -/
theorem engine_step_of_exec {i : Instr} {s t : State} (h : exec i s = .next t) :
    t.toEngine = (s.toEngine.step i).1 ∧
      t.responses = s.responses ++ (s.toEngine.step i).2.toList := by
  cases (exec_eq_transact i s).symm.trans h
  exact ⟨rfl, rfl⟩

/-- Settles O10: `READ` apart, a command is one write of `CRC` with no response; the form on the
one-register engine reads off that next state. -/
theorem execIsTheTransaction : Obligations.ExecIsTheTransaction :=
  ⟨exec_eq_transact, fun _ _ _ => engine_step_of_exec⟩

end Sys2Proof.Machine
end

section
/-! PROOFS. Chunks and command sequences: an update command is one `update` with its chunk, and chunk
boundaries are lost (40_update.md R62, R63). -/

namespace Sys2Proof.Machine

/-- The empty chunk leaves every state (40_update.md R63). -/
@[simp] theorem update_nil (s : Word) : update s [] = s := by
  simp [update_eq]

/-- Two chunks one after the other are their concatenation (40_update.md R62): the second call's
pre-inversion undoes the first call's post-inversion. -/
theorem update_update (s : Word) (a b : Chunk) : update (update s a) b = update s (a ++ b) := by
  simp [update_eq, List.foldl_append]

/-- An update command absorbs its chunk and answers nothing. -/
theorem transact_of_isUpdate {i : Instr} (h : isUpdate i = true) (crc : Word) :
    transact crc i = (update crc (chunkOf i), none) := by
  cases i with
  | init | load | read => cases h
  | upd0 | upd1 | upd2 | upd3 | upd4 => rfl

/-- On `CRC`, a `READ` is the update with the empty chunk it carries. -/
theorem transact_crc_of_isUpdate_or_read {i : Instr} (h : isUpdate i = true ∨ i = .read)
    (crc : Word) : (transact crc i).1 = update crc (chunkOf i) := by
  obtain h | rfl := h
  · rw [transact_of_isUpdate h]
  · exact (update_nil crc).symm

/-- Update commands and reads, in any chunking, come to one `update` with all the bytes. -/
theorem transactAll_crc_of_isUpdate_or_read {commands : List Instr}
    (h : ∀ i ∈ commands, isUpdate i = true ∨ i = .read) (crc : Word) :
    (transactAll crc commands).1 = update crc (commands.flatMap chunkOf) := by
  induction commands generalizing crc with
  | nil => exact (update_nil crc).symm
  | cons i later ih =>
    obtain ⟨hi, hlater⟩ := List.forall_mem_cons.mp h
    calc (transactAll crc (i :: later)).1
        = (transactAll (transact crc i).1 later).1 := rfl
      _ = update (update crc (chunkOf i)) (later.flatMap chunkOf) := by
        rw [ih hlater, transact_crc_of_isUpdate_or_read hi]
      _ = update crc ((i :: later).flatMap chunkOf) := by
        rw [update_update, List.flatMap_cons]

/-- Behind an `INIT`, update commands and reads leave the checksum of the bytes absorbed so far. -/
theorem transactAll_init_crc {commands : List Instr}
    (h : ∀ i ∈ commands, isUpdate i = true ∨ i = .read) (crc : Word) :
    (transactAll crc (.init :: commands)).1 = checksum (commands.flatMap chunkOf) :=
  transactAll_crc_of_isUpdate_or_read h 0x00000000#32

end Sys2Proof.Machine
end

section
/-! PROOFS. A run over commands offered at consecutive edges (42_datapath_forms.md R81,
70_reset_and_hazards.md R112): with at most one response waiting, each is accepted and executes. -/

namespace Sys2Proof.Machine

/-- Decoding undoes encoding: a lane holds the byte put in it, whatever the other lanes hold. -/
theorem decode_encode (i : Instr) : decode (encode i) = i := by
  cases i with
  | upd0 => exact decode_op0 _
  | upd1 | upd2 | upd3 | upd4 =>
    simp [encode, Instr.opcode, Instr.dataField, decode_op1, decode_op2, decode_op3, decode_op4,
      lane_inLane_same, lane_inLane_other]
  | init => exact decode_op5 _
  | load v => exact decode_op6 v
  | read => exact decode_op7 _

/-- The word on the port at an edge that offers `w` is `w`. -/
@[simp] theorem offer_command (w : CommandWord) : (Edge.offer w).command = w := commandWord_fields w

/-- A run whose first step is known. -/
theorem run_succ {s t : State} (h : step s = .next t) (n : Nat) : run (n + 1) s = run n t := by
  simp only [run, h]

/-- A host that takes a response leaves none behind, if at most one waits. -/
theorem deliver_of_oneResponseWaits {s : State} {e : Edge} (hw : OneResponseWaits s)
    (hr : e.rspReady = true) :
    s.deliver e = { s with responses := [], delivered := s.delivered ++ s.responses } := by
  obtain ⟨v, vs, -, hs, h⟩ | ⟨hn, h⟩ := deliver_cases s e
  · have hvs : vs = [] := by simpa [OneResponseWaits, hs] using hw
    rw [h, hs, hvs]
  · have hs : s.responses = [] := by simpa [hr] using hn
    apply state_ext <;> simp [h, hs]

/-- With at most one response waiting, a command offered to a willing engine by a host that takes responses
is accepted. -/
theorem accepts_offer {s : State} (hw : OneResponseWaits s) (w : CommandWord) :
    s.accepts (Edge.offer w) = true := by
  have hs : s.stillWaiting (Edge.offer w) = [] := by
    rw [← deliver_responses, deliver_of_oneResponseWaits hw rfl]
  exact (accepts_eq_true _ _).mpr ⟨rfl, rfl, (cmdReady_eq_true _ _).mpr ⟨rfl, hs⟩⟩

/-- One offered command: the waiting response is delivered, and the command's own is all that waits. -/
theorem step_offer {s : State} {i : Instr} {later : List Edge} (hw : OneResponseWaits s)
    (he : s.edges = Edge.offer (encode i) :: later) :
    step s = .next
      { crc := (transact s.crc i).1, responses := (transact s.crc i).2.toList,
        delivered := s.delivered ++ s.responses, edges := later } := by
  have hw' : OneResponseWaits (s.withEdges later) := hw
  rw [step_executes he (accepts_offer hw _), offer_command, decode_encode,
    deliver_of_oneResponseWaits hw' rfl, exec_eq_transact]
  rfl

/-- An edge at which nothing is offered and the waiting response is taken. -/
theorem step_execute {s : State} {later : List Edge} (hw : OneResponseWaits s)
    (he : s.edges = Edge.execute :: later) :
    step s = .next
      { s with responses := [], delivered := s.delivered ++ s.responses, edges := later } := by
  have hw' : OneResponseWaits (s.withEdges later) := hw
  rw [step_accepts_none he rfl rfl, deliver_of_oneResponseWaits hw' rfl]
  rfl

/-- Commands offered back to back all execute, and every response is delivered. -/
theorem run_offerAll {s : State} {commands : List Instr} (hw : OneResponseWaits s)
    (he : s.edges = offerAll commands) :
    run s.edges.length s = .next
      { crc := (transactAll s.crc commands).1, responses := [],
        delivered := s.delivered ++ s.responses ++ (transactAll s.crc commands).2, edges := [] } := by
  induction commands generalizing s with
  | nil =>
    have he' : s.edges = [Edge.execute] := he
    rw [he', List.length_singleton, run_succ (step_execute hw he') 0]
    simp [run, transactAll]
  | cons i later ih =>
    have he' : s.edges = Edge.offer (encode i) :: offerAll later := he
    have hw' : OneResponseWaits
        { crc := (transact s.crc i).1, responses := (transact s.crc i).2.toList,
          delivered := s.delivered ++ s.responses, edges := offerAll later } :=
      Option.length_toList_le
    rw [he', List.length_cons, run_succ (step_offer hw he')]
    refine (ih hw' rfl).trans ?_
    simp [transactAll]

/-- Settles O24: `INIT` leaves 0, every update or read after it is an `update` with the chunk it carries, and
`update_update` joins the chunks; the stepped engine comes to the transaction level's `CRC`. -/
theorem crcIsTheChecksumSoFar : Obligations.CrcIsTheChecksumSoFar := by
  refine ⟨fun crc commands h => transactAll_init_crc h crc, fun s commands h hr he => ?_⟩
  have hw : OneResponseWaits s := by simp [OneResponseWaits, hr]
  exact ⟨_, run_offerAll hw he, transactAll_init_crc h s.crc⟩

end Sys2Proof.Machine
end

section
/-! PROOFS. The frame of the commands, and what can change `CRC` (10_state.md R18). -/

namespace Sys2Proof.Machine

section Exec

variable {i : Instr} {s t : State}

/-- No command writes the output record. -/
theorem exec_delivered (h : exec i s = .next t) : t.delivered = s.delivered := by
  obtain ⟨-, rfl⟩ | ⟨-, v, rfl⟩ := exec_cases h
  · exact respond_delivered s s.crc
  · exact setCrc_delivered s v

/-- No command writes the edges to come. -/
theorem exec_edges (h : exec i s = .next t) : t.edges = s.edges := by
  obtain ⟨-, rfl⟩ | ⟨-, v, rfl⟩ := exec_cases h
  · exact respond_edges s s.crc
  · exact setCrc_edges s v

/-- No command but `READ` responds. -/
theorem exec_responses_of_ne_read (h : exec i s = .next t) (hi : i ≠ .read) :
    t.responses = s.responses := by
  obtain ⟨hr, -⟩ | ⟨-, v, rfl⟩ := exec_cases h
  · exact absurd hr hi
  · exact setCrc_responses s v

/-- `READ` does nothing but respond. -/
theorem exec_read_eq (h : exec .read s = .next t) : t = s.respond s.crc := by
  obtain ⟨-, ht⟩ | ⟨hr, -⟩ := exec_cases h
  · exact ht
  · exact absurd rfl hr

/-- `UPD0` does nothing: it absorbs the empty chunk (40_update.md R63, R68). -/
theorem exec_upd0_eq (h : exec .upd0 s = .next t) : t = s := by
  cases (exec_eq_transact .upd0 s).symm.trans h
  simp [transact]

/-- A command that changes `CRC` is neither `READ` nor `UPD0`. -/
theorem ne_read_and_ne_upd0_of_crc_ne (h : exec i s = .next t) (hc : t.crc ≠ s.crc) :
    i ≠ .read ∧ i ≠ .upd0 := by
  constructor
  · rintro rfl
    exact hc (by rw [exec_read_eq h, respond_crc])
  · rintro rfl
    exact hc (by rw [exec_upd0_eq h])

end Exec

/-- A command on a `PIPE` implementation, taken back to the command on its engine. -/
theorem pipe_execute_cases {i : Instr} {p q : Pipe} (h : Pipe.execute i p = .next q) :
    q.inFlight = p.inFlight ∧ exec i p.toState = .next q.toState := by
  obtain ⟨t, ht, hq⟩ := pipe_execute_next i p
  cases hq.symm.trans h
  exact ⟨rfl, ht⟩

/-- Settles O9: `READ` is one response and any other command one write of `CRC`, which `UPD0` makes with the
value it holds; a `PIPE` implementation executes by the same `exec`. -/
theorem commandFrame : Obligations.CommandFrame := by
  refine ⟨fun i s t h =>
    ⟨exec_delivered h, exec_edges h, ?_, exec_responses_of_ne_read h, ?_⟩,
    fun i p q h => pipe_execute_cases h⟩
  · rintro rfl
    rw [exec_read_eq h]
    exact ⟨rfl, rfl⟩
  · rintro rfl
    rw [exec_upd0_eq h]

/-- Settles O58: of what a step can do, only a reset and an executed command write `CRC`, and the command is
then neither `READ` nor `UPD0`. -/
theorem onlyCommandsAndResetChangeCrc : Obligations.OnlyCommandsAndResetChangeCrc := by
  refine ⟨fun s t h hc => ?_, fun p q h hc => ?_⟩
  · obtain ⟨-, hs⟩ | ⟨e, later, he, ⟨hr, -⟩ | ⟨-, -, hs⟩ | ⟨-, ha, hs⟩⟩ := step_cases s
    · cases hs.symm.trans h
      exact absurd rfl hc
    · exact ⟨e, later, he, .inl hr⟩
    · cases hs.symm.trans h
      exact absurd (deliver_crc _ e) hc
    · have hx := hs.symm.trans h
      refine ⟨e, later, he, .inr ⟨ha, ne_read_and_ne_upd0_of_crc_ne hx ?_⟩⟩
      rwa [deliver_crc]
  · obtain ⟨-, hs⟩ | ⟨e, later, he, ⟨hr, -⟩ | ⟨-, -, hs⟩ | ⟨-, w, ws, hn, hs⟩⟩ := pipe_step_cases p
    · cases hs.symm.trans h
      exact absurd rfl hc
    · exact ⟨e, later, he, .inl hr⟩
    · cases hs.symm.trans h
      exact absurd (deliver_crc _ e) hc
    · obtain ⟨-, hx⟩ := pipe_execute_cases (hs.symm.trans h)
      refine ⟨e, later, he, .inr ⟨w, ws, hn, ne_read_and_ne_upd0_of_crc_ne hx ?_⟩⟩
      simpa using hc

end Sys2Proof.Machine
end

section
/-! PROOFS. One step of a `PIPE` implementation, an equation for each thing it can do. -/

namespace Sys2Proof.Machine

variable {p : Pipe} {e : Edge} {later : List Edge}

/-- No edge to come: nothing happens. -/
theorem pipe_step_no_edge (he : p.edges = []) : p.step = .next p := by
  simp only [Pipe.step, he]

/-- An edge with `rst = 1`: the reset, whatever the other wires carry. -/
theorem pipe_step_reset_edge (he : p.edges = e :: later) (hr : e.rst = true) :
    p.step = .next (p.withEdges later).resetEngine := by
  simp only [Pipe.step, he, hr]

/-- An edge at which no command executes: the two handshakes. -/
theorem pipe_step_executes_none (he : p.edges = e :: later) (hr : e.rst = false)
    (hn : ((p.withEdges later).handshakes e).nextCommand e = none) :
    p.step = .next ((p.withEdges later).handshakes e) := by
  simp only [Pipe.step, he, hr, hn]

/-- An edge at which the oldest command in flight executes, behind the handshakes. -/
theorem pipe_step_executes {w : CommandWord} {ws : List CommandWord} (he : p.edges = e :: later)
    (hr : e.rst = false)
    (hn : ((p.withEdges later).handshakes e).nextCommand e = some (w, ws)) :
    p.step = Pipe.execute (decode w) (((p.withEdges later).handshakes e).withInFlight ws) := by
  simp only [Pipe.step, he, hr, hn]

end Sys2Proof.Machine
end

section
/-! PROOFS. The response sequence is an output (10_state.md R14): a step over a state with any other words
delivered before it does the same and appends the same words. -/

namespace Sys2Proof.Machine

/-- The words delivered so far, replaced. -/
def State.withDelivered (s : State) (d : List Word) : State := { s with delivered := d }

/-- The words delivered so far, replaced. -/
def Pipe.withDelivered (p : Pipe) (d : List Word) : Pipe :=
  { p with toState := p.toState.withDelivered d }

/-- The words handed to the host at an edge: the oldest that waits, if the host takes one. -/
def State.taken (s : State) (e : Edge) : List Word :=
  if e.rspReady then s.responses.take 1 else []

/-- A delivery appends the word taken, if there is one. -/
theorem deliver_delivered (s : State) (e : Edge) :
    (s.deliver e).delivered = s.delivered ++ s.taken e := by
  obtain ⟨v, vs, hr, hs, h⟩ | ⟨hr | hs, h⟩ := deliver_cases s e
  · simp [h, State.taken, hr, hs]
  · simp [h, State.taken, hr]
  · simp [h, State.taken, hs]

/-- A delivery appends the words taken to those delivered before it, whatever these are. -/
theorem deliver_withDelivered (s : State) (e : Edge) (later : List Edge) (d : List Word) :
    ((s.withDelivered d).withEdges later).deliver e =
      ((s.withEdges later).deliver e).withDelivered (d ++ s.taken e) :=
  state_ext ((deliver_crc _ e).trans (deliver_crc (s.withEdges later) e).symm)
    ((deliver_responses _ e).trans (deliver_responses (s.withEdges later) e).symm)
    (deliver_delivered _ e)
    ((deliver_edges _ e).trans (deliver_edges (s.withEdges later) e).symm)

/-- A command neither reads nor writes the words delivered before it. -/
theorem exec_withDelivered {i : Instr} {s t : State} (h : exec i s = .next t) (d : List Word) :
    exec i (s.withDelivered d) = .next (t.withDelivered d) := by
  cases (exec_eq_transact i s).symm.trans h
  exact exec_eq_transact i _

/-- A step appends the same words whatever was delivered before it, and does the same otherwise. -/
theorem step_withDelivered (s : State) :
    ∃ (t : State) (ws : List Word),
      ∀ d, step (s.withDelivered d) = .next (t.withDelivered (d ++ ws)) := by
  obtain ⟨he, -⟩ | ⟨e, later, he, ⟨hr, -⟩ | ⟨hr, ha, -⟩ | ⟨-, ha, -⟩⟩ := step_cases s
  · refine ⟨s, [], fun d => ?_⟩
    rw [List.append_nil]
    exact step_no_edge he
  · refine ⟨(s.withEdges later).resetEngine, [], fun d => ?_⟩
    rw [List.append_nil]
    exact step_reset_edge he hr
  · refine ⟨(s.withEdges later).deliver e, s.taken e, fun d => ?_⟩
    rw [step_accepts_none (s := s.withDelivered d) he hr ha, deliver_withDelivered]
  · obtain ⟨t, ht⟩ := exec_next (decode e.command) ((s.withEdges later).deliver e)
    refine ⟨t, s.taken e, fun d => ?_⟩
    rw [step_executes (s := s.withDelivered d) he ha, deliver_withDelivered, exec_withDelivered ht]

/-- The handshakes of a `PIPE` implementation append the words taken, whatever was delivered before. -/
theorem handshakes_withDelivered (p : Pipe) (e : Edge) (later : List Edge) (d : List Word) :
    ((p.withDelivered d).withEdges later).handshakes e =
      ((p.withEdges later).handshakes e).withDelivered (d ++ p.toState.taken e) :=
  pipe_ext (deliver_withDelivered p.toState e later d) rfl

/-- What a `PIPE` implementation executes next does not depend on the words delivered. -/
theorem nextCommand_withDelivered (p : Pipe) (e : Edge) (d : List Word) :
    (p.withDelivered d).nextCommand e = p.nextCommand e := rfl

/-- The commands in flight and the words delivered are replaced independently. -/
theorem withDelivered_withInFlight (p : Pipe) (d : List Word) (ws : List CommandWord) :
    (p.withDelivered d).withInFlight ws = (p.withInFlight ws).withDelivered d := rfl

/-- A command of a `PIPE` implementation neither reads nor writes the words delivered before it. -/
theorem pipe_execute_withDelivered {i : Instr} {p q : Pipe} (h : Pipe.execute i p = .next q)
    (d : List Word) : Pipe.execute i (p.withDelivered d) = .next (q.withDelivered d) := by
  obtain ⟨hf, hx⟩ := pipe_execute_cases h
  rw [pipe_execute_eq (exec_withDelivered hx d)]
  exact congrArg _ (pipe_ext rfl hf.symm)

/-- A step of a `PIPE` implementation appends the same words whatever was delivered before it, and does the
same otherwise. -/
theorem pipe_step_withDelivered (p : Pipe) :
    ∃ (q : Pipe) (ws : List Word),
      ∀ d, (p.withDelivered d).step = .next (q.withDelivered (d ++ ws)) := by
  obtain ⟨he, -⟩ | ⟨e, later, he, ⟨hr, -⟩ | ⟨hr, hn, -⟩ | ⟨hr, w, ws, hn, -⟩⟩ := pipe_step_cases p
  · refine ⟨p, [], fun d => ?_⟩
    rw [List.append_nil]
    exact pipe_step_no_edge he
  · refine ⟨(p.withEdges later).resetEngine, [], fun d => ?_⟩
    rw [List.append_nil]
    exact pipe_step_reset_edge he hr
  · refine ⟨(p.withEdges later).handshakes e, p.toState.taken e, fun d => ?_⟩
    have hn' : (((p.withDelivered d).withEdges later).handshakes e).nextCommand e = none := by
      rw [handshakes_withDelivered, nextCommand_withDelivered, hn]
    rw [pipe_step_executes_none (p := p.withDelivered d) he hr hn', handshakes_withDelivered]
  · obtain ⟨t, -, hq⟩ :=
      pipe_execute_next (decode w) (((p.withEdges later).handshakes e).withInFlight ws)
    refine ⟨{ toState := t, inFlight := ws }, p.toState.taken e, fun d => ?_⟩
    have hn' : (((p.withDelivered d).withEdges later).handshakes e).nextCommand e = some (w, ws) := by
      rw [handshakes_withDelivered, nextCommand_withDelivered, hn]
    rw [pipe_step_executes (p := p.withDelivered d) he hr hn', handshakes_withDelivered,
      withDelivered_withInFlight, pipe_execute_withDelivered hq, pipe_withInFlight_inFlight]

/-- Settles O59: what a step does with the words delivered before it is to append others, the same ones
whatever they are. -/
theorem outputsAreNeverReadBack : Obligations.OutputsAreNeverReadBack := by
  refine ⟨fun s t other h => ?_, fun p q other h => ?_⟩
  · obtain ⟨t', ws, hstep⟩ := step_withDelivered s
    cases (hstep s.delivered).symm.trans h
    refine ⟨(hstep other).trans ?_, ⟨ws, rfl⟩⟩
    simp [State.withDelivered]
  · obtain ⟨q', ws, hstep⟩ := pipe_step_withDelivered p
    cases (hstep p.delivered).symm.trans h
    refine ⟨(hstep other).trans ?_, ⟨ws, rfl⟩⟩
    simp [Pipe.withDelivered, State.withDelivered]

end Sys2Proof.Machine
end

section
/-! PROOFS. Reset (10_state.md R25, R26; 70_reset_and_hazards.md R105, R108). -/

namespace Sys2Proof.Machine

/-- `INIT` right after reset writes the 0 that is there. -/
theorem exec_init_reset : exec .init State.reset = .next State.reset := exec_eq_transact _ _

/-- Settles O45: the fields of the reset state, `RAW` their complement, and `INIT` on it. -/
theorem stateAfterReset : Obligations.StateAfterReset :=
  ⟨rfl, by decide, rfl, rfl, rfl, rfl, exec_init_reset, Nat.zero_le 1, rfl, rfl⟩

/-- A reset leaves nothing of what the engine held at power-up. -/
theorem powerUp_withEdges_resetEngine (draw : Word) (vs : List Word) (es later : List Edge) :
    ((State.powerUp draw vs es).withEdges later).resetEngine = State.reset.withEdges later := rfl

/-- Settles O46: a reset edge is `resetEngine`, which overwrites `CRC` and empties the port and what is in
flight. -/
theorem resetForgetsPowerUp : Obligations.ResetForgetsPowerUp := by
  refine ⟨fun draw vs e later hr => ?_, fun draw ws vs e later hr => ?_⟩
  · rw [step_reset_edge (powerUp_edges draw _ vs) hr, powerUp_withEdges_resetEngine]
  · rw [pipe_step_reset_edge (powerUp_edges draw _ vs) hr]
    exact congrArg _ (pipe_ext (powerUp_withEdges_resetEngine draw vs _ later) rfl)

end Sys2Proof.Machine
end

section
/-! PROOFS. What a run comes to (20_memory.md R38): a delivery leaves it, a command taken from the front of
those to come leaves it, and so does every step without reset. -/

namespace Sys2Proof.Machine

/-- What a state comes to by executing commands in order: the last `CRC`, and every response given, waiting
or answered on the way. -/
def State.comesTo (s : State) (commands : List Instr) : Word × List Word :=
  ((transactAll s.crc commands).1, s.delivered ++ s.responses ++ (transactAll s.crc commands).2)

/-- A `PIPE` implementation promises what its engine comes to by the commands in flight and then those
still to be accepted. -/
theorem promised_eq_comesTo (p : Pipe) :
    p.promised = p.toState.comesTo ((p.inFlight ++ acceptedWords p.edges).map decode) := rfl

/-- With no command to come, what waits and what `CRC` holds. -/
theorem comesTo_nil (s : State) : s.comesTo [] = (s.crc, s.delivered ++ s.responses) :=
  congrArg (Prod.mk s.crc) (List.append_nil _)

/-- Delivery moves a response from those waiting to those given. -/
theorem comesTo_deliver (s : State) (e : Edge) (commands : List Instr) :
    (s.deliver e).comesTo commands = s.comesTo commands := by
  simp only [State.comesTo, deliver_crc, deliver_keeps_stream]

/-- What a state comes to is a matter of the commands, not of the edges. -/
@[simp] theorem comesTo_withEdges (s : State) (edges : List Edge) (commands : List Instr) :
    (s.withEdges edges).comesTo commands = s.comesTo commands := rfl

/-- The state behind a command comes to what the state before it comes to by that command first. -/
theorem comesTo_of_exec {i : Instr} {s t : State} (h : exec i s = .next t) (commands : List Instr) :
    t.comesTo commands = s.comesTo (i :: commands) := by
  cases (exec_eq_transact i s).symm.trans h
  simp [State.comesTo, transactAll]

/-- The words accepted at the first edge, and then those at the later ones. -/
theorem acceptedWords_cons (e : Edge) (later : List Edge) :
    acceptedWords (e :: later) = acceptedWords [e] ++ acceptedWords later := by
  simp only [acceptedWords, ← List.map_append, ← List.filter_append, List.singleton_append]

/-- An edge shows an acceptance exactly if no reset comes, a word is offered and `cmd_ready` is 1. -/
theorem edge_accepts_eq_true {e : Edge} :
    e.accepts = true ↔ e.rst = false ∧ e.cmdValid = true ∧ e.ready = true := by
  simp [Edge.accepts, and_assoc]

/-- An edge that shows an acceptance accepts the word on the port. -/
theorem acceptedWords_of_accepts {e : Edge} (h : e.accepts = true) :
    acceptedWords [e] = [e.command] := by
  simp [acceptedWords, h]

/-- An edge that shows none accepts nothing. -/
theorem acceptedWords_of_not_accepts {e : Edge} (h : e.accepts = false) : acceptedWords [e] = [] := by
  simp [acceptedWords, h]

/-- No reset among the edges: none at the first and none later. -/
theorem resetFree_cons {e : Edge} {later : List Edge} :
    resetFree (e :: later) = true ↔ e.rst = false ∧ resetFree later = true := by
  simp [resetFree]

/-- No reset among the edges: none behind the first. -/
theorem resetFree_tail {edges : List Edge} (h : resetFree edges = true) :
    resetFree edges.tail = true := by
  cases edges with
  | nil => exact h
  | cons e later => exact (resetFree_cons.mp h).2

/-- A step uses up one edge. -/
theorem step_edges {s t : State} (h : step s = .next t) : t.edges = s.edges.tail := by
  obtain ⟨he, hs⟩ | ⟨e, later, he, ⟨-, hs⟩ | ⟨-, -, hs⟩ | ⟨-, -, hs⟩⟩ := step_cases s <;>
    rw [hs] at h
  · cases h; simp [he]
  · cases h; simp [he]
  · cases h; simp [he]
  · simp [exec_edges h, he]

/-- A step of a `PIPE` implementation uses up one edge. -/
theorem pipe_step_edges {p q : Pipe} (h : p.step = .next q) : q.edges = p.edges.tail := by
  obtain ⟨he, hs⟩ | ⟨e, later, he, ⟨-, hs⟩ | ⟨-, -, hs⟩ | ⟨-, w, ws, -, hs⟩⟩ := pipe_step_cases p <;>
    rw [hs] at h
  · cases h; simp [he]
  · cases h; simp [he]
  · cases h; simp [he]
  · simp [exec_edges (pipe_execute_cases h).2, he]

/-- A step without reset takes the command its edge accepts, if there is one, from the front of those to
come. -/
theorem step_comesTo {s t : State} {e : Edge} {later : List Edge} (he : s.edges = e :: later)
    (hr : e.rst = false) (h : step s = .next t) (commands : List Instr) :
    t.comesTo commands = s.comesTo ((acceptedWords [s.shown e]).map decode ++ commands) := by
  cases ha : s.accepts e with
  | false =>
    cases (step_accepts_none he hr ha).symm.trans h
    rw [comesTo_deliver, comesTo_withEdges, acceptedWords_of_not_accepts (e := s.shown e) ha]
    rfl
  | true =>
    rw [comesTo_of_exec ((step_executes he ha).symm.trans h), comesTo_deliver, comesTo_withEdges,
      acceptedWords_of_accepts (e := s.shown e) ha]
    rfl

/-- A step of a `PIPE` implementation without reset keeps what the run comes to: a word accepted joins the
commands in flight at their end, before those still to be accepted, and a command that executes leaves
them at their front. -/
theorem pipe_step_promised {p q : Pipe} (hf : resetFree p.edges = true) (h : p.step = .next q) :
    q.promised = p.promised := by
  obtain ⟨-, hs⟩ | ⟨e, later, he, ⟨hr, -⟩ | ⟨-, -, hs⟩ | ⟨-, w, ws, hn, hs⟩⟩ := pipe_step_cases p
  · cases hs.symm.trans h
    rfl
  · rw [he, resetFree_cons, hr] at hf
    cases hf.1
  · cases hs.symm.trans h
    simp [promised_eq_comesTo, comesTo_deliver, he, acceptedWords_cons e later]
  · obtain ⟨-, -, hw⟩ := nextCommand_eq_some.mp hn
    obtain ⟨hq, hx⟩ := pipe_execute_cases (hs.symm.trans h)
    calc q.promised
        = q.toState.comesTo ((ws ++ acceptedWords later).map decode) := by
          rw [promised_eq_comesTo, hq, exec_edges hx]
          simp
      _ = p.toState.comesTo ((w :: ws ++ acceptedWords later).map decode) := by
          rw [comesTo_of_exec hx]
          simp [comesTo_deliver]
      _ = p.promised := by
          rw [← hw, promised_eq_comesTo, he, acceptedWords_cons e later]
          simp

/-- Settles O48: acceptance, execution and delivery each leave what the run comes to. -/
theorem stepKeepsWhatTheRunComesTo : Obligations.StepKeepsWhatTheRunComesTo := by
  refine fun p q hf h => ⟨pipe_step_promised hf h, ?_⟩
  rw [pipe_step_edges h]
  exact resetFree_tail hf

end Sys2Proof.Machine
end

section
/-! PROOFS. Runs: an invariant of the step is one of the run, and for every timing a run does what its
accepted commands do one at a time (20_memory.md R38). -/

namespace Sys2Proof.Machine

/-- What every step keeps, every run keeps; and a run answers a next state. -/
theorem run_keeps {P : State → Prop} (hP : ∀ s t, P s → step s = .next t → P t) (n : Nat) {s : State}
    (hs : P s) : ∃ t, run n s = .next t ∧ P t := by
  induction n generalizing s with
  | zero => exact ⟨s, rfl, hs⟩
  | succ n ih =>
    obtain ⟨t, ht⟩ := step_next s
    rw [run_succ ht]
    exact ih (hP s t hs ht)

/-- Every step of a `PIPE` implementation answers a next state. -/
theorem pipe_step_next (p : Pipe) : ∃ q, p.step = .next q := by
  obtain ⟨-, h⟩ | ⟨e, later, -, ⟨-, h⟩ | ⟨-, -, h⟩ | ⟨-, w, ws, -, h⟩⟩ := pipe_step_cases p
  · exact ⟨_, h⟩
  · exact ⟨_, h⟩
  · exact ⟨_, h⟩
  · obtain ⟨t, -, hx⟩ :=
      pipe_execute_next (decode w) (((p.withEdges later).handshakes e).withInFlight ws)
    exact ⟨_, h.trans hx⟩

/-- A run of a `PIPE` implementation whose first step is known. -/
theorem pipe_run_succ {p q : Pipe} (h : p.step = .next q) (n : Nat) :
    Pipe.run (n + 1) p = Pipe.run n q := by
  simp only [Pipe.run, h]

/-- What every step of a `PIPE` implementation keeps, every run of it keeps. -/
theorem pipe_run_keeps {P : Pipe → Prop} (hP : ∀ p q, P p → p.step = .next q → P q) (n : Nat)
    {p : Pipe} (hp : P p) : ∃ q, Pipe.run n p = .next q ∧ P q := by
  induction n generalizing p with
  | zero => exact ⟨p, rfl, hp⟩
  | succ n ih =>
    obtain ⟨q, hq⟩ := pipe_step_next p
    rw [pipe_run_succ hq]
    exact ih (hP p q hp hq)

/-- A run uses up one edge a step. -/
theorem run_edges {n : Nat} {s t : State} (h : run n s = .next t) : t.edges = s.edges.drop n := by
  induction n generalizing s with
  | zero => cases h; rfl
  | succ n ih =>
    obtain ⟨u, hu⟩ := step_next s
    rw [run_succ hu] at h
    rw [ih h, step_edges hu, List.drop_tail]

/-- A run of a `PIPE` implementation uses up one edge a step. -/
theorem pipe_run_edges {n : Nat} {p q : Pipe} (h : Pipe.run n p = .next q) :
    q.edges = p.edges.drop n := by
  induction n generalizing p with
  | zero => cases h; rfl
  | succ n ih =>
    obtain ⟨u, hu⟩ := pipe_step_next p
    rw [pipe_run_succ hu] at h
    rw [ih h, pipe_step_edges hu, List.drop_tail]

/-- A sequence of commands is its first part, and then its second on the value the first left. -/
theorem transactAll_append (crc : Word) (before after : List Instr) :
    transactAll crc (before ++ after) =
      ((transactAll (transactAll crc before).1 after).1,
        (transactAll crc before).2 ++ (transactAll (transactAll crc before).1 after).2) := by
  induction before generalizing crc with
  | nil => rfl
  | cons i before ih => simp [transactAll, ih]

/-- A run over all its edges, none a reset, comes to what the commands it accepts come to in order. -/
theorem run_comesTo {s : State} (hf : resetFree s.edges = true) :
    ∃ t, run s.edges.length s = .next t ∧
      t.comesTo [] = s.comesTo (commandSequence s.edges.length s) := by
  generalize hes : s.edges = es at hf
  induction es generalizing s with
  | nil => exact ⟨s, rfl, rfl⟩
  | cons e later ih =>
    obtain ⟨hr, hlater⟩ := resetFree_cons.mp hf
    obtain ⟨t, ht⟩ := step_next s
    have hte : t.edges = later := by rw [step_edges ht, hes, List.tail_cons]
    obtain ⟨u, hu, hcomes⟩ := ih hte hlater
    refine ⟨u, (run_succ ht _).trans hu, ?_⟩
    rw [hcomes, step_comesTo hes hr ht, commandSequence, commandSequence, List.length_cons,
      wires_succ _ hes ht, acceptedWords_cons _ (wires _ t), List.map_append]

/-- A run of a `PIPE` implementation without reset keeps what it promises. -/
theorem pipe_run_promised {p : Pipe} (hf : resetFree p.edges = true) (n : Nat) :
    ∃ q, Pipe.run n p = .next q ∧ q.promised = p.promised := by
  obtain ⟨q, hq, hpromised, -⟩ :=
    pipe_run_keeps (P := fun q => q.promised = p.promised ∧ resetFree q.edges = true)
      (fun u v ⟨hu, hfu⟩ h =>
        have ⟨hv, hfv⟩ := stepKeepsWhatTheRunComesTo u v hfu h
        ⟨hv.trans hu, hfv⟩)
      n ⟨rfl, hf⟩
  exact ⟨q, hq, hpromised⟩

/-- Behind its last edge a `PIPE` implementation promises what it has given and still owes. -/
theorem promised_of_no_edge {q : Pipe} (h : q.edges = []) :
    q.promised = (q.finalCrc, q.allResponses) := by
  have hnil : acceptedWords [] = [] := rfl
  rw [Pipe.promised, h, hnil, List.append_nil]
  rfl

/-- Settles O47: the model takes the accepted commands from the front one at a time, and a `PIPE`
implementation keeps its promise until no edge is left. -/
theorem timingIsInvisible : Obligations.TimingIsInvisible := by
  refine ⟨fun s hf => ?_, fun p hf => ?_, transactAll_append⟩
  · obtain ⟨t, ht, hcomes⟩ := run_comesTo hf
    rw [comesTo_nil] at hcomes
    obtain ⟨hcrc, hresponses⟩ := Prod.mk.inj hcomes
    exact ⟨t, ht, by rw [run_edges ht, List.drop_length], hresponses, hcrc⟩
  · obtain ⟨q, hq, hpromised⟩ := pipe_run_promised hf p.edges.length
    have hqe : q.edges = [] := by rw [pipe_run_edges hq, List.drop_length]
    rw [promised_of_no_edge hqe] at hpromised
    obtain ⟨hcrc, hresponses⟩ := Prod.mk.inj hpromised
    exact ⟨q, hq, hqe, hresponses, hcrc⟩

end Sys2Proof.Machine
end

section
/-! PROOFS. The response port and back pressure (20_memory.md R30, R43): an offered response stays until the
host takes it, and nothing executes behind it. -/

namespace Sys2Proof.Machine

section Deliver

variable {s : State} {e : Edge}

/-- Nothing is delivered if the host takes nothing or nothing waits. -/
theorem deliver_eq_self (h : e.rspReady = false ∨ s.responses = []) : s.deliver e = s := by
  obtain ⟨v, vs, hr, hs, -⟩ | ⟨-, hd⟩ := deliver_cases s e
  · simp [hr, hs] at h
  · exact hd

/-- A delivery leaves no more responses waiting than before. -/
theorem oneResponseWaits_deliver (h : OneResponseWaits s) : OneResponseWaits (s.deliver e) := by
  obtain ⟨v, vs, -, hs, hd⟩ | ⟨-, hd⟩ := deliver_cases s e
  · rw [OneResponseWaits, hs, List.length_cons] at h
    rw [hd]
    exact Nat.le_of_succ_le h
  · rwa [hd]

/-- A command answers at most one response, which is all that waits if none waited before. -/
theorem oneResponseWaits_of_exec {i : Instr} {t : State} (hs : s.responses = [])
    (h : exec i s = .next t) : OneResponseWaits t := by
  rw [OneResponseWaits, (engine_step_of_exec h).2, hs, List.nil_append]
  exact Option.length_toList_le

/-- What waits is what the two wires of the response port offer. -/
theorem rspValid_and_rspData {v : Word} {waiting : List Word} (h : s.responses = v :: waiting) :
    s.rspValid = true ∧ s.rspData = some v := by
  simp [State.rspValid, State.rspData, h]

/-- The host takes the oldest response that waits. -/
theorem taken_of_ready {v : Word} {waiting : List Word} (hs : s.responses = v :: waiting)
    (hr : e.rspReady = true) : s.taken e = [v] := by
  simp [State.taken, hs, hr]

/-- No command is accepted behind a response the host does not take. -/
theorem not_accepts_of_withheld (hs : s.responses ≠ []) (hr : e.rspReady = false) :
    s.accepts e = false := by
  have hwait : s.stillWaiting e = s.responses := by
    rw [← deliver_responses, deliver_eq_self (.inl hr)]
  simp [State.accepts, State.cmdReady, hwait, hs]

end Deliver

section Step

variable {s t : State} {e : Edge} {later : List Edge}

/-- A step without reset delivers the word the host takes, and no other. -/
theorem step_delivered (he : s.edges = e :: later) (hrst : e.rst = false) (h : step s = .next t) :
    t.delivered = s.delivered ++ s.taken e := by
  have hd : ((s.withEdges later).deliver e).delivered = s.delivered ++ s.taken e :=
    deliver_delivered _ e
  cases ha : s.accepts e with
  | false =>
    cases (step_accepts_none he hrst ha).symm.trans h
    exact hd
  | true => rw [exec_delivered ((step_executes he ha).symm.trans h), hd]

/-- While the host withholds `rsp_ready` from a waiting response, a step only uses up its edge. -/
theorem step_withheld (he : s.edges = e :: later) (hrst : e.rst = false) (hs : s.responses ≠ [])
    (hr : e.rspReady = false) : step s = .next (s.withEdges later) := by
  rw [step_accepts_none he hrst (not_accepts_of_withheld hs hr), deliver_eq_self (.inl hr)]

end Step

section Pipe

variable {p q : Pipe} {e : Edge} {later : List Edge}

/-- A step of a `PIPE` implementation without reset delivers the word the host takes, and no other. -/
theorem pipe_step_delivered (he : p.edges = e :: later) (hrst : e.rst = false)
    (h : p.step = .next q) : q.delivered = p.delivered ++ p.toState.taken e := by
  have hd : ((p.withEdges later).handshakes e).delivered = p.delivered ++ p.toState.taken e :=
    deliver_delivered _ e
  cases hn : ((p.withEdges later).handshakes e).nextCommand e with
  | none =>
    cases (pipe_step_executes_none he hrst hn).symm.trans h
    exact hd
  | some c =>
    rw [exec_delivered (pipe_execute_cases ((pipe_step_executes he hrst hn).symm.trans h)).2,
      pipe_withInFlight_toState, hd]

/-- While the host withholds `rsp_ready` from a waiting response, a `PIPE` implementation uses up its edge
and may accept a command, but executes none. -/
theorem pipe_step_withheld (he : p.edges = e :: later) (hrst : e.rst = false) (hs : p.responses ≠ [])
    (hr : e.rspReady = false) : p.step = .next ((p.withEdges later).accept e) := by
  have hd : (p.withEdges later).deliver e = p.withEdges later :=
    pipe_ext (deliver_eq_self (.inl hr)) rfl
  have hh : (p.withEdges later).handshakes e = (p.withEdges later).accept e := by
    rw [Pipe.handshakes, hd]
  have hn : ((p.withEdges later).accept e).nextCommand e = none :=
    nextCommand_eq_none.mpr (.inr (.inl hs))
  rw [pipe_step_executes_none he hrst (hh.symm ▸ hn), hh]

end Pipe

/-- Settles O57: a delivery leaves at most as many responses waiting, and a command executes only if it
leaves none. -/
theorem oneResponseWaitsIsKept : Obligations.OneResponseWaitsIsKept := by
  refine ⟨fun s t hw h => ?_, fun p q hw h => ?_⟩
  · obtain ⟨-, hs⟩ | ⟨e, later, -, ⟨-, hs⟩ | ⟨-, -, hs⟩ | ⟨-, ha, hs⟩⟩ := step_cases s
    · cases hs.symm.trans h
      exact hw
    · cases hs.symm.trans h
      exact Nat.zero_le 1
    · cases hs.symm.trans h
      exact oneResponseWaits_deliver (s := s.withEdges later) hw
    · obtain ⟨-, -, hready⟩ := (accepts_eq_true s e).mp ha
      obtain ⟨-, hwait⟩ := (cmdReady_eq_true s e).mp hready
      exact oneResponseWaits_of_exec ((deliver_responses (s.withEdges later) e).trans hwait)
        (hs.symm.trans h)
  · obtain ⟨-, hs⟩ | ⟨e, later, -, ⟨-, hs⟩ | ⟨-, -, hs⟩ | ⟨-, w, ws, hn, hs⟩⟩ := pipe_step_cases p
    · cases hs.symm.trans h
      exact hw
    · cases hs.symm.trans h
      exact Nat.zero_le 1
    · cases hs.symm.trans h
      exact oneResponseWaits_deliver (s := p.toState.withEdges later) hw
    · obtain ⟨-, hwait, -⟩ := nextCommand_eq_some.mp hn
      exact oneResponseWaits_of_exec hwait (pipe_execute_cases (hs.symm.trans h)).2

/-- Settles O42: a step delivers exactly the word taken, and where none is taken only the edge is used up,
with a command accepted in a `PIPE` implementation at most. -/
theorem responseIsHeldUntilDelivered : Obligations.ResponseIsHeldUntilDelivered := by
  refine ⟨fun s t e later v waiting he hrst hs h => ?_, fun p q e later v waiting he hrst hs h => ?_⟩
  · obtain ⟨hvalid, hdata⟩ := rspValid_and_rspData hs
    refine ⟨hvalid, hdata, fun hr => ?_, fun hr => ?_⟩
    · rw [step_delivered he hrst h, taken_of_ready hs hr]
    · cases (step_withheld he hrst (by simp [hs]) hr).symm.trans h
      exact ⟨rfl, rfl, hdata⟩
  · obtain ⟨hvalid, hdata⟩ := rspValid_and_rspData hs
    refine ⟨hvalid, hdata, fun hr => ?_, fun hr => ?_⟩
    · rw [pipe_step_delivered he hrst h, taken_of_ready hs hr]
    · cases (pipe_step_withheld he hrst (by simp [hs]) hr).symm.trans h
      exact ⟨rfl, rfl, hdata⟩

/-- A state is as `s` but for its edges, and the host takes no response at any edge to come. -/
def State.StuckAs (s t : State) : Prop :=
  t.crc = s.crc ∧ t.responses = s.responses ∧ t.delivered = s.delivered ∧
    ∀ e ∈ t.edges, e.rst = false ∧ e.rspReady = false

/-- A step of a stuck engine leaves it stuck as it was. -/
theorem step_keeps_stuckAs {s t u : State} (hs : s.responses ≠ []) (ht : s.StuckAs t)
    (h : step t = .next u) : s.StuckAs u := by
  obtain ⟨hcrc, hresponses, hdelivered, hedges⟩ := ht
  cases he : t.edges with
  | nil =>
    cases (step_no_edge he).symm.trans h
    exact ⟨hcrc, hresponses, hdelivered, hedges⟩
  | cons e later =>
    rw [he] at hedges
    obtain ⟨⟨hrst, hr⟩, hlater⟩ := List.forall_mem_cons.mp hedges
    cases (step_withheld he hrst (hresponses ▸ hs) hr).symm.trans h
    exact ⟨hcrc, hresponses, hdelivered, hlater⟩

/-- A step of a stuck `PIPE` implementation leaves its engine stuck as it was. -/
theorem pipe_step_keeps_stuckAs {s : State} {p q : Pipe} (hs : s.responses ≠ [])
    (hp : s.StuckAs p.toState) (h : p.step = .next q) : s.StuckAs q.toState := by
  obtain ⟨hcrc, hresponses, hdelivered, hedges⟩ := hp
  cases he : p.edges with
  | nil =>
    cases (pipe_step_no_edge he).symm.trans h
    exact ⟨hcrc, hresponses, hdelivered, hedges⟩
  | cons e later =>
    rw [he] at hedges
    obtain ⟨⟨hrst, hr⟩, hlater⟩ := List.forall_mem_cons.mp hedges
    cases (pipe_step_withheld he hrst (hresponses ▸ hs) hr).symm.trans h
    exact ⟨hcrc, hresponses, hdelivered, hlater⟩

/-- Settles O54: the engine stays as it is but for its edges, which every step keeps. -/
theorem stuckWhileResponseWithheld : Obligations.StuckWhileResponseWithheld := by
  refine ⟨fun n s hs hedges => ?_, fun n p hs hedges => ?_⟩
  · obtain ⟨t, ht, hcrc, hresponses, hdelivered, -⟩ :=
      run_keeps (fun _ _ => step_keeps_stuckAs hs) n ⟨rfl, rfl, rfl, hedges⟩
    exact ⟨t, ht, hcrc, hresponses, hdelivered⟩
  · obtain ⟨q, hq, hcrc, hresponses, hdelivered, -⟩ :=
      pipe_run_keeps (P := fun q => p.toState.StuckAs q.toState)
        (fun _ _ => pipe_step_keeps_stuckAs hs) n ⟨rfl, rfl, rfl, hedges⟩
    exact ⟨q, hq, hcrc, hresponses, hdelivered⟩

end Sys2Proof.Machine
end

section
/-! PROOFS. The command port (20_memory.md R29): when a word is accepted, that it executes, and that an offer
the host holds is accepted once. -/

namespace Sys2Proof.Machine

/-- Settles O38: the equations of a step at an edge at which a command executes. -/
theorem stepRunsTheDecodedCommand : Obligations.StepRunsTheDecodedCommand :=
  ⟨fun _ _ _ he ha => step_executes he ha, fun _ _ _ _ _ he hrst hadvance hwait hflight =>
    pipe_step_executes he hrst (nextCommand_eq_some.mpr ⟨hadvance, hwait, hflight⟩)⟩

/-- Settles O39: with no response waiting there is nothing to deliver and `cmd_ready` is 1; in a `PIPE`
implementation the accepted word is then the oldest in flight. -/
theorem acceptedCommandExecutes : Obligations.AcceptedCommandExecutes := by
  refine ⟨fun s e later he hs hrst hvalid hready => ?_, fun p e later he hflight hs ha hadvance => ?_⟩
  · have hwait : s.stillWaiting e = [] := by
      rw [← deliver_responses, deliver_eq_self (.inr hs), hs]
    have ha : s.accepts e = true :=
      (accepts_eq_true s e).mpr ⟨hrst, hvalid, (cmdReady_eq_true s e).mpr ⟨hready, hwait⟩⟩
    rw [step_executes he ha, deliver_eq_self (s := s.withEdges later) (.inr hs)]
    rfl
  · have hd : (p.toState.withEdges later).deliver e = p.toState.withEdges later :=
      deliver_eq_self (.inr hs)
    obtain ⟨hrst, -, -⟩ := edge_accepts_eq_true.mp ha
    have hn : ((p.withEdges later).handshakes e).nextCommand e = some (e.command, []) :=
      nextCommand_eq_some.mpr ⟨hadvance, by simp [hd, hs],
        by simp [hflight, acceptedWords_of_accepts ha]⟩
    have hq : ((p.withEdges later).handshakes e).withInFlight [] = p.withEdges later :=
      pipe_ext hd hflight.symm
    rw [pipe_step_executes he hrst hn, hq]
    rfl

/-- Settles O40: `accepts` and `cmd_ready` by their definitions, and the equations of a step and of the
handshakes. -/
theorem acceptanceNeedsTheHandshake : Obligations.AcceptanceNeedsTheHandshake := by
  refine ⟨accepts_eq_true, fun _ _ _ _ _ => rfl, fun _ _ _ => step_accepts_none, fun p e hrst => ?_⟩
  have ha : e.accepts = (e.cmdValid && e.ready) := by simp [Edge.accepts, hrst]
  rw [pipe_handshakes_inFlight, ← ha]
  cases h : e.accepts with
  | false => rw [acceptedWords_of_not_accepts h]; rfl
  | true => rw [acceptedWords_of_accepts h]; rfl

/-- A host that keeps its duty offers the word it offered and that was not accepted again. -/
theorem offer_held {e next : Edge} (h : holdsOffer e next = true) (hrst : e.rst = false)
    (hvalid : e.cmdValid = true) (hready : e.ready = false) (hnext : next.rst = false) :
    next.cmdValid = true ∧ next.command = e.command := by
  simp only [holdsOffer, hrst, hvalid, hready, hnext, Bool.not_false, Bool.and_self, if_true,
    Bool.and_eq_true, beq_iff_eq] at h
  obtain ⟨⟨hv, hop⟩, hdata⟩ := h
  exact ⟨hv, by rw [Edge.command, hop, hdata, Edge.command]⟩

/-- An offer that is not accepted passes unchanged to the next edge, and nothing is accepted before it. -/
theorem offer_passes {e next : Edge} {rest : List Edge} (hhost : hostHolds (e :: next :: rest) = true)
    (hfree : resetFree (e :: next :: rest) = true) (hvalid : e.cmdValid = true)
    (hready : e.ready = false) :
    next.cmdValid = true ∧ next.command = e.command ∧
      acceptedWords (e :: next :: rest) = acceptedWords (next :: rest) := by
  obtain ⟨hrst, hfree'⟩ := resetFree_cons.mp hfree
  obtain ⟨hnext, -⟩ := resetFree_cons.mp hfree'
  obtain ⟨hholds, -⟩ := Bool.and_eq_true_iff.mp hhost
  obtain ⟨hvalid', hcommand⟩ := offer_held hholds hrst hvalid hready hnext
  have hnone : acceptedWords [e] = [] :=
    acceptedWords_of_not_accepts (by simp [Edge.accepts, hready])
  exact ⟨hvalid', hcommand, by rw [acceptedWords_cons, hnone, List.nil_append]⟩

/-- An offer held over any number of edges without `cmd_ready` is the one word accepted when it comes. -/
theorem acceptedWords_of_held {offer accepting : Edge} {stalls : List Edge}
    (hhost : hostHolds (offer :: (stalls ++ [accepting])) = true)
    (hfree : resetFree (offer :: (stalls ++ [accepting])) = true) (hvalid : offer.cmdValid = true)
    (hstall : ∀ e ∈ offer :: stalls, e.ready = false) (hready : accepting.ready = true) :
    acceptedWords (offer :: (stalls ++ [accepting])) = [offer.command] := by
  induction stalls generalizing offer with
  | nil =>
    obtain ⟨hvalid', hcommand, hpass⟩ :=
      offer_passes hhost hfree hvalid (hstall offer List.mem_cons_self)
    obtain ⟨hrst, -⟩ := resetFree_cons.mp (resetFree_tail hfree)
    rw [List.nil_append, hpass, ← hcommand]
    exact acceptedWords_of_accepts (edge_accepts_eq_true.mpr ⟨hrst, hvalid', hready⟩)
  | cons next stalls ih =>
    rw [List.cons_append] at hhost hfree ⊢
    obtain ⟨hoffer, hstall'⟩ := List.forall_mem_cons.mp hstall
    obtain ⟨hvalid', hcommand, hpass⟩ := offer_passes hhost hfree hvalid hoffer
    obtain ⟨-, hhost'⟩ := Bool.and_eq_true_iff.mp hhost
    rw [hpass, ← hcommand]
    exact ih hhost' (resetFree_tail hfree) hvalid' hstall'

/-- Without edges a run shows none. -/
theorem wires_no_edge {s : State} (h : s.edges = []) (n : Nat) : wires n s = [] := by
  cases n <;> simp [wires, h]

/-- The edges a run shows on the wires are its edges, in order, but for `cmd_ready`. -/
theorem wires_eq_edges_but_ready (s : State) (n : Nat) :
    (wires n s).map (fun e => { e with ready := false }) =
      (s.edges.take n).map (fun e => { e with ready := false }) := by
  induction n generalizing s with
  | zero => rfl
  | succ n ih =>
    cases he : s.edges with
    | nil => rw [wires_no_edge he]; rfl
    | cons e later =>
      obtain ⟨t, ht⟩ := step_next s
      rw [wires_succ n he ht, List.map_cons, ih, step_edges ht, he]
      rfl

/-- A run shows one edge a step, as long as there are any. -/
theorem wires_length (s : State) (n : Nat) : (wires n s).length = min n s.edges.length := by
  simpa using congrArg List.length (wires_eq_edges_but_ready s n)

/-- Settles O41: the offer passes unchanged from edge to edge until `cmd_ready` is 1, and a run uses up and
shows one edge a step. -/
theorem heldOfferIsAcceptedOnce : Obligations.HeldOfferIsAcceptedOnce :=
  ⟨fun _ _ _ => acceptedWords_of_held,
    fun s n => ⟨wires_length s n, wires_eq_edges_but_ready s n⟩⟩

end Sys2Proof.Machine
end

section
/-! PROOFS. Executing a command twice (20_memory.md R35). The shifts are linear over exclusive OR
(42_datapath_forms.md R86), so that two states that differ by `d` differ by as many shifts of `d` as bits
are absorbed; an update is not idempotent because shifting `d` twice is not shifting it once. -/

namespace Sys2Proof.Machine

/-- Two exclusive ORs in the other order. -/
theorem word_xor_right_comm (a b c : Word) : a ^^^ b ^^^ c = a ^^^ c ^^^ b := by
  ac_rfl

/-- One shift is linear: where both low bits are set, the two feedback constants cancel. -/
theorem bitstep_xor (r d : Word) : bitstep (r ^^^ d) = bitstep r ^^^ bitstep d := by
  simp only [bitstep, BitVec.getLsbD_xor, BitVec.ushiftRight_xor_distrib]
  cases r.getLsbD 0 <;> cases d.getLsbD 0
  case true.true =>
    change r >>> 1 ^^^ d >>> 1 = r >>> 1 ^^^ polyRef ^^^ (d >>> 1 ^^^ polyRef)
    rw [BitVec.xor_comm (d >>> 1), BitVec.xor_assoc, ← BitVec.xor_assoc polyRef, BitVec.xor_self,
      BitVec.zero_xor]
  all_goals simp <;> ac_rfl

/-- Any number of shifts is linear. -/
theorem bitsteps_xor (k : Nat) (r d : Word) :
    bitsteps k (r ^^^ d) = bitsteps k r ^^^ bitsteps k d := by
  induction k generalizing r d with
  | zero => rfl
  | succ k ih => rw [bitsteps, bitstep_xor, ih]; rfl

/-- Shifts in two parts. -/
theorem bitsteps_add (m n : Nat) (r : Word) : bitsteps (m + n) r = bitsteps n (bitsteps m r) := by
  induction m generalizing r with
  | zero => rw [Nat.zero_add]; rfl
  | succ m ih => rw [Nat.add_right_comm, bitsteps, ih]; rfl

/-- A byte is absorbed by one exclusive OR and eight shifts (40_update.md R59). -/
theorem bytestep_eq_bitsteps (r : Word) (b : Byte) : bytestep r b = bitsteps 8 (r ^^^ zext32 b) := rfl

/-- A difference of raw registers becomes eight shifts of it, whatever byte is absorbed. -/
theorem bytestep_xor (r d : Word) (b : Byte) : bytestep (r ^^^ d) b = bytestep r b ^^^ bitsteps 8 d := by
  rw [bytestep_eq_bitsteps, bytestep_eq_bitsteps, word_xor_right_comm, bitsteps_xor]

/-- A difference of raw registers becomes as many shifts of it as bits are absorbed. -/
theorem foldl_bytestep_xor (r d : Word) (c : Chunk) :
    c.foldl bytestep (r ^^^ d) = c.foldl bytestep r ^^^ bitsteps (8 * c.length) d := by
  induction c generalizing r d with
  | nil => rfl
  | cons b c ih =>
    rw [List.foldl_cons, List.foldl_cons, bytestep_xor, ih, List.length_cons, Nat.mul_succ,
      Nat.add_comm, bitsteps_add]

/-- A difference of states becomes as many shifts of it as bits are absorbed. -/
theorem update_xor (s d : Word) (c : Chunk) :
    update (s ^^^ d) c = update s c ^^^ bitsteps (8 * c.length) d := by
  rw [update, word_xor_right_comm, foldl_bytestep_xor, word_xor_right_comm, update]

/-- If the shifts of a chunk's length do not keep what they make of `d`, absorbing the chunk again is not
the same as absorbing it once: of two states that differ by `d` one shows it. -/
theorem exists_update_update_ne {c : Chunk} {d : Word}
    (h : bitsteps (8 * c.length) (bitsteps (8 * c.length) d) ≠ bitsteps (8 * c.length) d) :
    ∃ crc, update (update crc c) c ≠ update crc c := by
  by_contra hall
  simp only [not_exists, not_not] at hall
  have hd := hall (0#32 ^^^ d)
  rw [update_xor, update_xor, hall] at hd
  exact h (BitVec.xor_right_inj _ |>.mp hd)

/-- An update command other than `UPD0` carries one to four bytes (30_encoding.md R47). -/
theorem chunkOf_length_mem {i : Instr} (h : isUpdate i = true) (h0 : i ≠ .upd0) :
    (chunkOf i).length ∈ [1, 2, 3, 4] := by
  cases i with
  | init | load | read => cases h
  | upd0 => exact absurd rfl h0
  | upd1 | upd2 | upd3 | upd4 => simp [chunkOf]

/-- The shifts of one to four bytes do not keep what they make of the value 1. -/
theorem bitsteps_one_not_kept :
    ∀ n ∈ [1, 2, 3, 4], bitsteps (8 * n) (bitsteps (8 * n) 1#32) ≠ bitsteps (8 * n) 1#32 := by
  decide +kernel

/-- A command that is no update, and `UPD0`, does not change `CRC` a second time. -/
theorem transact_transact_crc {i : Instr} (h : isUpdate i = false ∨ i = .upd0) (crc : Word) :
    (transact (transact crc i).1 i).1 = (transact crc i).1 := by
  cases i with
  | upd0 => exact update_nil (update crc [])
  | upd1 | upd2 | upd3 | upd4 => simp [isUpdate] at h
  | init | load | read => rfl

/-- An update executed twice absorbs its chunk twice. -/
theorem transact_transact_of_isUpdate {i : Instr} (h : isUpdate i = true) (crc : Word) :
    (transact (transact crc i).1 i).1 = update (update crc (chunkOf i)) (chunkOf i) := by
  rw [transact_of_isUpdate h, transact_of_isUpdate h]

/-- Settles O11: a write of a value that does not depend on `CRC`, a `READ` or an empty chunk changes nothing
again; an update absorbs its bytes again, and two states that differ by 1 cannot both hide it. -/
theorem whichCommandsAreIdempotent : Obligations.WhichCommandsAreIdempotent := by
  refine ⟨fun i crc h => transact_transact_crc h crc, fun crc => rfl, fun i crc h => ?_,
    fun i h h0 => ?_⟩
  · rw [transact_transact_of_isUpdate h, update_update]
  · obtain ⟨crc, hne⟩ := exists_update_update_ne (bitsteps_one_not_kept _ (chunkOf_length_mem h h0))
    refine ⟨crc, ?_⟩
    rwa [transact_transact_of_isUpdate h, transact_of_isUpdate h]

end Sys2Proof.Machine
end

section
/-! PROOFS. The encoding (30_encoding.md R44 to R48, R52): what `decode` gives for each value of `op`, and the
canonical spelling of a word, with every ignored bit 0. -/

namespace Sys2Proof.Machine

/-- Settles O12: `op` selects the command's constructor again, and each lane holds the byte put in it. -/
theorem decodeEncodeIsIdentity : Obligations.DecodeEncodeIsIdentity := fun i _ => decode_encode i

/-- What decodes for one value of `op`, whatever `data` holds, is what a word with that `op` decodes to. -/
theorem decode_of_op {n : Nat} {command : Word → Instr}
    (hdec : ∀ d, decode (commandWord (BitVec.ofNat 3 n) d) = command d) {w : CommandWord}
    (h : (opOf w).toNat = n) : decode w = command (dataOf w) := by
  have hop : opOf w = BitVec.ofNat 3 n := by simp [← h]
  rw [← hdec, ← hop, commandWord_fields]

/-- A statement about every word is one about `op` and `data`, for the eight values of `op`. -/
theorem forall_word_of_op {P : CommandWord → Prop}
    (h0 : ∀ d, P (commandWord 0#3 d)) (h1 : ∀ d, P (commandWord 1#3 d))
    (h2 : ∀ d, P (commandWord 2#3 d)) (h3 : ∀ d, P (commandWord 3#3 d))
    (h4 : ∀ d, P (commandWord 4#3 d)) (h5 : ∀ d, P (commandWord 5#3 d))
    (h6 : ∀ d, P (commandWord 6#3 d)) (h7 : ∀ d, P (commandWord 7#3 d)) (w : CommandWord) : P w := by
  rw [← commandWord_fields w]
  obtain h | h | h | h | h | h | h | h := op_cases (opOf w) <;> rw [h]
  exacts [h0 _, h1 _, h2 _, h3 _, h4 _, h5 _, h6 _, h7 _]

/-- A word's fields determine it. -/
theorem commandWord_inj {op op' : BitVec 3} {d d' : Word} :
    commandWord op d = commandWord op' d' ↔ op = op' ∧ d = d' := by
  refine ⟨fun h => ⟨?_, ?_⟩, fun ⟨hop, hd⟩ => by rw [hop, hd]⟩
  · simpa using congrArg opOf h
  · simpa using congrArg dataOf h

/-- The bits of a byte in lane k stand from bit 8k on. -/
theorem getLsbD_inLane (b : Byte) {k : Nat} (hk : k < 4) (j : Nat) :
    (inLane b k).getLsbD j = (decide (8 * k ≤ j) && b.getLsbD (j - 8 * k)) := by
  rw [inLane, BitVec.getLsbD_shiftLeft, BitVec.getLsbD_setWidth]
  by_cases hj : j < 8 * k + 8
  · have h32 : j < 32 := by omega
    have h32' : j - 8 * k < 32 := by omega
    simp only [h32, h32', decide_true, Bool.true_and, ← decide_not, Nat.not_lt]
  · simp [BitVec.getLsbD_of_ge b (j - 8 * k) (by omega)]

/-- Reading a lane and putting it back keeps the bits of that lane and clears the others. -/
theorem inLane_lane (d : Word) {k : Nat} (hk : k < 4) :
    inLane (lane d k) k = d &&& inLane 0xFF#8 k := by
  apply BitVec.eq_of_getLsbD_eq
  intro j hj
  rw [BitVec.getLsbD_and, getLsbD_inLane _ hk, getLsbD_inLane _ hk]
  by_cases hlow : 8 * k ≤ j
  · by_cases hhigh : j - 8 * k < 8
    · have hmask : (0xFF#8).getLsbD (j - 8 * k) = true := by
        rw [show 0xFF#8 = BitVec.allOnes 8 from rfl, BitVec.getLsbD_allOnes, decide_eq_true hhigh]
      rw [getLsbD_lane _ _ _ hhigh, hmask, Nat.add_sub_cancel' hlow, Bool.and_true,
        decide_eq_true hlow, Bool.true_and, Bool.and_true]
    · rw [BitVec.getLsbD_of_ge (lane d k) _ (by omega), BitVec.getLsbD_of_ge 0xFF#8 _ (by omega)]
      simp
  · simp [hlow]

/-- The operand bits of what a word decodes to are those `op` makes the engine read (R45). -/
theorem dataField_decode (w : CommandWord) :
    (decode w).dataField = dataOf w &&& usedBits (opOf w) := by
  induction w using forall_word_of_op with
  | h0 d | h5 d | h7 d => simp [decode_op0, decode_op5, decode_op7, Instr.dataField, usedBits]
  | h6 d =>
    rw [decode_op6, dataOf_commandWord, opOf_commandWord]
    exact BitVec.and_allOnes.symm
  | h1 d | h2 d | h3 d | h4 d =>
    simp only [decode_op1, decode_op2, decode_op3, decode_op4, Instr.dataField, inLane_lane,
      Nat.reduceLT, ← BitVec.and_or_distrib_left, dataOf_commandWord, opOf_commandWord]
    rfl

/-- `op` is the opcode of the command it selects. -/
theorem opcode_decode (w : CommandWord) : (decode w).opcode = opOf w := by
  induction w using forall_word_of_op <;>
    simp [decode_op0, decode_op1, decode_op2, decode_op3, decode_op4, decode_op5, decode_op6,
      decode_op7, Instr.opcode]

/-- Encoding what a word decodes to gives its canonical spelling. -/
theorem encode_decode (w : CommandWord) : encode (decode w) = canonical w := by
  rw [encode, opcode_decode, dataField_decode, canonical]

/-- A word's canonical spelling decodes to the same command. -/
theorem decode_canonical (w : CommandWord) : decode (canonical w) = decode w := by
  rw [← encode_decode, decode_encode]

/-- Settles O13: the opcode of what a word decodes to is its `op`, and its lanes put back are the bits of
`data` that `op` makes the engine read. -/
theorem encodeDecodeIsCanonical : Obligations.EncodeDecodeIsCanonical :=
  ⟨encode_decode, decode_canonical⟩

/-- Two words are the same command exactly if they have the same canonical spelling. -/
theorem decode_eq_iff_canonical_eq {w w' : CommandWord} :
    decode w = decode w' ↔ canonical w = canonical w' := by
  refine ⟨fun h => ?_, fun h => ?_⟩
  · rw [← encode_decode, h, encode_decode]
  · rw [← decode_canonical, h, decode_canonical]

/-- Two words have the same canonical spelling exactly if they agree in `op` and in the bits it makes the
engine read. -/
theorem canonical_eq_iff {w w' : CommandWord} :
    canonical w = canonical w' ↔
      opOf w = opOf w' ∧ dataOf w &&& usedBits (opOf w) = dataOf w' &&& usedBits (opOf w) := by
  rw [canonical, canonical, commandWord_inj]
  exact and_congr_right fun hop => by rw [hop]

/-- Settles O14: every command answers a next state, and the canonical spelling, which is `op` and the bits it
reads, stands for the command. -/
theorem decodingIsTotalAndIgnores : Obligations.DecodingIsTotalAndIgnores := by
  have hiff : ∀ w w', decode w = decode w' ↔
      opOf w = opOf w' ∧ dataOf w &&& usedBits (opOf w) = dataOf w' &&& usedBits (opOf w) :=
    fun _ _ => decode_eq_iff_canonical_eq.trans canonical_eq_iff
  exact ⟨fun w => exec_next (decode w), hiff,
    fun w w' hop hdata s => by rw [(hiff w w').mpr ⟨hop, hdata⟩]⟩

/-- The format of a command stands in the row of its opcode (R47). -/
theorem formatOf_eq_of_opcode (i : Instr) :
    formatOf i = [Format.z, .b, .b, .b, .b, .z, .w, .z].getD i.opcode.toNat .z := by
  cases i <;> rfl

/-- The opcode of an update command counts the bytes it carries (R47). -/
theorem chunkOf_length {i : Instr} (h : isUpdate i = true) :
    (chunkOf i).length = i.opcode.toNat := by
  cases i with
  | init | load | read => cases h
  | upd0 | upd1 | upd2 | upd3 | upd4 => rfl

/-- The mask of R47 keeps the three bits of `op` where they stand. -/
theorem and_opMask (w : CommandWord) :
    w &&& 0x700000000#35 = (opOf w).setWidth 35 <<< 32 := by
  apply BitVec.eq_of_getLsbD_eq
  intro k hk
  rw [show (0x700000000#35) = (BitVec.allOnes 3).setWidth 35 <<< 32 from rfl, BitVec.getLsbD_and,
    BitVec.getLsbD_shiftLeft, BitVec.getLsbD_shiftLeft, BitVec.getLsbD_setWidth,
    BitVec.getLsbD_setWidth, opOf, BitVec.getLsbD_extractLsb', BitVec.getLsbD_allOnes]
  by_cases h : k < 32
  · simp [h]
  · have h3 : k - 32 < 3 := by omega
    have h35 : k - 32 < 35 := by omega
    have hk32 : 32 + (k - 32) = k := by omega
    simp [h, h3, h35, hk32, hk]

/-- Settles O15: what decodes for each value of `op`, and the mask bit by bit. -/
theorem opcodeMap : Obligations.OpcodeMap := by
  refine ⟨opcode_decode, fun _ => decode_of_op decode_op0, fun _ h => ⟨_, decode_of_op decode_op1 h⟩,
    fun _ h => ⟨_, _, decode_of_op decode_op2 h⟩, fun _ h => ⟨_, _, _, decode_of_op decode_op3 h⟩,
    fun _ h => ⟨_, _, _, _, decode_of_op decode_op4 h⟩, fun _ => decode_of_op decode_op5,
    fun _ h => ⟨_, decode_of_op decode_op6 h⟩, fun _ => decode_of_op decode_op7, fun w => ?_,
    fun w h => ?_, and_opMask, decode_op0 0#32⟩
  · rw [formatOf_eq_of_opcode, opcode_decode]
  · rw [chunkOf_length h, opcode_decode]

/-- An update command carries its lanes in order, as many as `op` says (R46). -/
theorem chunkOf_decode {w : CommandWord} (h : isUpdate (decode w) = true) :
    chunkOf (decode w) = firstLanes (opOf w).toNat (dataOf w) := by
  induction w using forall_word_of_op with
  | h0 d | h1 d | h2 d | h3 d | h4 d =>
    simp only [decode_op0, decode_op1, decode_op2, decode_op3, decode_op4, dataOf_commandWord,
      opOf_commandWord]
    rfl
  | h5 d | h6 d | h7 d => simp [decode_op5, decode_op6, decode_op7, isUpdate] at h

/-- A zero-extended byte has the byte's bits and no others (R46). -/
theorem getLsbD_zext32 (b : Byte) (k : Nat) :
    (zext32 b).getLsbD k = (decide (k < 8) && b.getLsbD k) := by
  rw [zext32, BitVec.getLsbD_setWidth]
  by_cases h : k < 8
  · have h32 : k < 32 := by omega
    simp [h, h32]
  · simp [BitVec.getLsbD_of_ge b k (by omega)]

/-- Settles O16: lanes and the zero extension bit by bit, and the lanes each update command lists. -/
theorem lanesAreBytesOfData : Obligations.LanesAreBytesOfData := by
  refine ⟨fun d k j _ hj => getLsbD_lane d k j hj, fun _ => chunkOf_decode, getLsbD_zext32,
    fun r b k hk => ?_, fun w hop => decode_of_op decode_op6 (congrArg BitVec.toNat hop)⟩
  have hhigh : ¬ k < 8 := by omega
  rw [BitVec.getLsbD_xor, getLsbD_zext32, decide_eq_false hhigh, Bool.false_and, Bool.xor_false]

/-- Settles O17: each word is its `op` over its `data`, and the lanes of that `data` are literals. -/
theorem wordsOfTheTableDecode : Obligations.WordsOfTheTableDecode :=
  ⟨decode_op1 0x44332211#32, decode_op3 0x44332211#32, decode_op4 0x34333231#32,
    decode_op5 0xFFFFFFFF#32, decode_op6 0xF63AF4EE#32, decode_op7 0xFFFFFFFF#32⟩

end Sys2Proof.Machine
end

section
/-! PROOFS. The pseudo-instructions and the document's two functions (30_encoding.md R53, R54): `BYTES` is
update commands that carry the bytes in order, hence one `update`. -/

namespace Sys2Proof.Machine

/-- `BYTES` carries exactly the bytes, in order. -/
theorem flatMap_chunkOf_bytesCommands (c : Chunk) : (bytesCommands c).flatMap chunkOf = c := by
  induction c using bytesCommands.induct with
  | case1 | case2 | case3 | case4 => rfl
  | case5 b0 b1 b2 b3 rest ih => rw [bytesCommands, List.flatMap_cons, ih]; rfl

/-- `BYTES` is update commands. -/
theorem isUpdate_of_mem_bytesCommands {c : Chunk} : ∀ i ∈ bytesCommands c, isUpdate i = true := by
  induction c using bytesCommands.induct with
  | case1 | case2 | case3 | case4 => simp [bytesCommands, isUpdate]
  | case5 b0 b1 b2 b3 rest ih => exact List.forall_mem_cons.mpr ⟨rfl, ih⟩

/-- `BYTES` is one `UPD4` for every four bytes, and one update with the bytes that are left. -/
theorem opcodes_bytesCommands (c : Chunk) :
    (bytesCommands c).map Instr.opcode =
      List.replicate (c.length / 4) 4#3 ++
        if c.length % 4 = 0 then [] else [BitVec.ofNat 3 (c.length % 4)] := by
  induction c using bytesCommands.induct with
  | case1 | case2 | case3 | case4 => simp [bytesCommands, Instr.opcode]
  | case5 b0 b1 b2 b3 rest ih =>
    have hlength : (b0 :: b1 :: b2 :: b3 :: rest).length = rest.length + 4 := rfl
    rw [bytesCommands, List.map_cons, ih, hlength, Nat.add_div_right _ (by decide),
      Nat.add_mod_right, List.replicate_succ, List.cons_append]
    rfl

/-- Update commands come to one `update` with all their bytes, and answer nothing. -/
theorem transactAll_of_isUpdate {commands : List Instr} (h : ∀ i ∈ commands, isUpdate i = true)
    (crc : Word) : transactAll crc commands = (update crc (commands.flatMap chunkOf), []) := by
  refine Prod.ext (transactAll_crc_of_isUpdate_or_read (fun i hi => .inl (h i hi)) crc) ?_
  induction commands generalizing crc with
  | nil => rfl
  | cons i later ih =>
    obtain ⟨hi, hlater⟩ := List.forall_mem_cons.mp h
    rw [transactAll, transact_of_isUpdate hi, ih hlater]
    rfl

/-- `BYTES c` is `update` with `c`, from any `CRC`. -/
theorem transactAll_bytesCommands (crc : Word) (c : Chunk) :
    transactAll crc (bytesCommands c) = (update crc c, []) := by
  rw [transactAll_of_isUpdate isUpdate_of_mem_bytesCommands, flatMap_chunkOf_bytesCommands]

/-- A `READ` behind `BYTES c` answers the `update` with `c`. -/
theorem transactAll_bytesCommands_read (crc : Word) (c : Chunk) :
    transactAll crc (bytesCommands c ++ [.read]) = (update crc c, [update crc c]) := by
  rw [transactAll_append, transactAll_bytesCommands]
  rfl

/-- `LOAD s`, `BYTES c`, `READ` is the document's `update(s, c)`, from any `CRC`. -/
theorem transactAll_updateCommands (crc s : Word) (c : Chunk) :
    transactAll crc (updateCommands s c) = (update s c, [update s c]) :=
  transactAll_bytesCommands_read s c

/-- `CHECKSUM c` is the document's `checksum(c)`, from any `CRC`. -/
theorem transactAll_checksumCommands (crc : Word) (c : Chunk) :
    transactAll crc (checksumCommands c) = (checksum c, [checksum c]) :=
  transactAll_bytesCommands_read 0x00000000#32 c

/-- `STR` is `BYTES` of the ASCII codes. -/
theorem assembleMnemonic_str {text : List Char} {codes : Chunk}
    (h : text.mapM asciiCode = some codes) :
    assembleMnemonic ['S', 'T', 'R'] [.text text] = some (bytesCommands codes) := by
  change assembleText [.text text] = _
  rw [assembleText, h, Option.map_some]

/-- Settles O35: the expansion of `BYTES` by recursion on four bytes at a time; its first floor(L/4)
commands are the `UPD4`s. -/
theorem pseudoInstructions : Obligations.PseudoInstructions := by
  refine ⟨rfl, rfl, fun _ => rfl, flatMap_chunkOf_bytesCommands, fun c => ?_,
    fun _ _ => assembleMnemonic_str, fun _ => rfl, transactAll_checksumCommands⟩
  rw [List.map_take, List.map_drop, opcodes_bytesCommands]
  exact ⟨List.take_left' List.length_replicate, List.drop_left' List.length_replicate⟩

/-- Settles O36: `LOAD` and `INIT` set the value that `BYTES` then updates and `READ` answers. -/
theorem documentFunctionsAsCommands : Obligations.DocumentFunctionsAsCommands :=
  ⟨transactAll_updateCommands, transactAll_bytesCommands_read, transactAll_bytesCommands,
    fun crc c => congrArg Prod.snd (transactAll_checksumCommands crc c)⟩

end Sys2Proof.Machine
end

section
/-! PROOFS. Text (30_encoding.md R44, R52): the numbers and lines that are written are read back. -/

namespace Sys2Proof.Machine

/-- A character that neither ends a bare token nor opens a quoted one. -/
def isBareChar (c : Char) : Bool :=
  c != semicolon && c != space && c != singleQuote && c != doubleQuote

/-- A text that is one bare token. -/
def isBareWord (cs : List Char) : Bool := !cs.isEmpty && cs.all isBareChar

/-- The four characters that may not stand in a bare token. -/
theorem isBareChar_iff {c : Char} :
    isBareChar c = true ↔ c ≠ semicolon ∧ c ≠ space ∧ c ≠ singleQuote ∧ c ≠ doubleQuote := by
  simp [isBareChar, and_assoc]

/-- The operands of a line, a blank before each. -/
def operandsText (operands : List (List Char)) : List Char :=
  operands.flatMap fun cs => space :: cs

/-- Inside a bare token the reader goes on to the token's end. -/
theorem lex_inBare_append {cs : List Char} (h : cs.all isBareChar = true) (acc rest : List Char) :
    lex (.inBare acc) (cs ++ rest) = lex (.inBare (cs.reverse ++ acc)) rest := by
  induction cs generalizing acc with
  | nil => rfl
  | cons c cs ih =>
    obtain ⟨hc, hcs⟩ := Bool.and_eq_true_iff.mp (List.all_cons.symm.trans h)
    obtain ⟨hsemicolon, hspace, -, -⟩ := isBareChar_iff.mp hc
    rw [List.cons_append, lex, if_neg hsemicolon, if_neg hspace, ih hcs, List.reverse_cons,
      List.append_assoc, List.singleton_append]

/-- Between tokens the reader goes on to the end of a bare word. -/
theorem lex_between_append {cs : List Char} (h : isBareWord cs = true) (rest : List Char) :
    lex .between (cs ++ rest) = lex (.inBare cs.reverse) rest := by
  cases cs with
  | nil => cases h
  | cons c cs =>
    obtain ⟨hc, hcs⟩ := Bool.and_eq_true_iff.mp (List.all_cons.symm.trans h)
    obtain ⟨hsemicolon, hspace, hsingle, hdouble⟩ := isBareChar_iff.mp hc
    rw [List.cons_append, lex, if_neg hsemicolon, if_neg hspace, if_neg hsingle, if_neg hdouble,
      lex_inBare_append hcs, List.reverse_cons]

/-- At the end of a bare token the reader gives it and then the operands behind it. -/
theorem lex_inBare_operandsText {operands : List (List Char)}
    (h : ∀ cs ∈ operands, isBareWord cs = true) (acc : List Char) :
    lex (.inBare acc) (operandsText operands) =
      some (.bare acc.reverse :: operands.map Token.bare) := by
  induction operands generalizing acc with
  | nil => rfl
  | cons cs operands ih =>
    obtain ⟨hcs, hoperands⟩ := List.forall_mem_cons.mp h
    have hsplit : operandsText (cs :: operands) = space :: (cs ++ operandsText operands) := rfl
    rw [hsplit, lex, if_neg (by decide), if_pos rfl, lex_between_append hcs, ih hoperands,
      List.reverse_reverse]
    rfl

/-- A mnemonic and its operands, a blank before each, are the tokens of the line. -/
theorem lex_line {m : List Char} {operands : List (List Char)} (hm : isBareWord m = true)
    (h : ∀ cs ∈ operands, isBareWord cs = true) :
    lex .between (m ++ operandsText operands) = some (.bare m :: operands.map Token.bare) := by
  rw [lex_between_append hm, lex_inBare_operandsText h, List.reverse_reverse]

/-- The sixteen digits are read back. -/
theorem hexValue_hexDigit : ∀ d < 16, hexValue (hexDigit d) = some d := by decide

/-- The sixteen digits may stand in a bare token. -/
theorem isBareChar_hexDigit : ∀ d < 16, isBareChar (hexDigit d) = true := by decide

/-- A number of `n` digits has `n` digits. -/
@[simp] theorem length_hexText (n v : Nat) : (hexText n v).length = n := by
  induction n generalizing v with
  | zero => rfl
  | succ n ih => rw [hexText, List.length_append, ih, List.length_singleton]

/-- The digits of a number may stand in a bare token. -/
theorem all_isBareChar_hexText (n v : Nat) : (hexText n v).all isBareChar = true := by
  induction n generalizing v with
  | zero => rfl
  | succ n ih =>
    simp [hexText, ih, isBareChar_hexDigit (v % 16) (Nat.mod_lt v (by decide))]

/-- A number this spec writes stands in a bare token. -/
theorem isBareWord_withMark (n v : Nat) : isBareWord (withMark n v) = true :=
  all_isBareChar_hexText n v

/-- Digits behind digits: the first are the value before the second. -/
theorem hexNumber_append (acc : Nat) (ds ds' : List Char) :
    hexNumber acc (ds ++ ds') = (hexNumber acc ds).bind fun v => hexNumber v ds' := by
  induction ds generalizing acc with
  | nil => rfl
  | cons c ds ih =>
    rw [List.cons_append, hexNumber, hexNumber]
    cases hexValue c with
    | none => rfl
    | some d => exact ih _

/-- The digits of a number that has room in them are read back. -/
theorem hexNumber_hexText {n v : Nat} (h : v < 16 ^ n) : hexNumber 0 (hexText n v) = some v := by
  induction n generalizing v with
  | zero =>
    obtain rfl : v = 0 := Nat.lt_one_iff.mp h
    rfl
  | succ n ih =>
    have hdiv : v / 16 < 16 ^ n := Nat.div_lt_of_lt_mul (by rwa [← Nat.pow_succ'])
    rw [hexText, hexNumber_append, ih hdiv, Option.bind_some, hexNumber,
      hexValue_hexDigit _ (Nat.mod_lt v (by decide))]
    exact congrArg some (Nat.div_add_mod v 16)

/-- A number this spec writes with `n` digits is read back. -/
theorem readHex_withMark {n v : Nat} (h : v < 16 ^ n) : readHex n (withMark n v) = some v := by
  rw [withMark, readHex, if_pos (length_hexText n v), hexNumber_hexText h]

/-- The token a byte is written as (R52). -/
def byteToken (b : Byte) : Token := .bare (withMark 2 b.toNat)

/-- A byte that is written is read back. -/
theorem byteOperand_byteToken (b : Byte) : byteOperand (byteToken b) = some b := by
  rw [byteToken, byteOperand, readHex_withMark b.isLt, Option.map_some, BitVec.ofNat_toNat,
    BitVec.setWidth_eq]

/-- Bytes that are written are read back, in order. -/
theorem mapM_byteOperand_byteToken (c : Chunk) : (c.map byteToken).mapM byteOperand = some c := by
  induction c with
  | nil => rfl
  | cons b c ih => simp [byteOperand_byteToken, ih]

/-- A value that is written is read back. -/
theorem valueOperand_withMark (v : Word) : valueOperand (.bare (withMark 8 v.toNat)) = some v := by
  rw [valueOperand, readHex_withMark v.isLt, Option.map_some, BitVec.ofNat_toNat, BitVec.setWidth_eq]

/-- A raw command word that is written is read back. -/
theorem rawOperand_withMark (w : CommandWord) :
    rawOperand (.bare (withMark 9 w.toNat)) = some w := by
  have hroom : w.toNat < 16 ^ 9 := w.isLt.trans (by decide)
  have hfits : commandFits w.toNat = true := decide_eq_true w.isLt
  rw [rawOperand, readHex_withMark hroom]
  simp [hfits]

/-- A line of a mnemonic is that mnemonic's command words. -/
theorem assemble_line {m : List Char} {operands : List (List Char)} (hm : isBareWord m = true)
    (hcmd : m ≠ ['.', 'c', 'm', 'd']) (h : ∀ cs ∈ operands, isBareWord cs = true) :
    assemble (m ++ operandsText operands) =
      (assembleMnemonic m (operands.map Token.bare)).map (List.map encode) := by
  rw [assemble, lex_line hm h]
  exact if_neg hcmd

/-- Written bytes assemble to the update command that carries them. -/
theorem assembleUpdate_bytes {c : Chunk} {i : Instr} (h : updateOf c = some i) :
    assembleUpdate c.length (c.map byteToken) = some [i] := by
  rw [assembleUpdate, if_pos (List.length_map byteToken), mapM_byteOperand_byteToken,
    Option.bind_some, h]

/-- The bytes of a line, written as operands. -/
theorem operandText_eq (c : Chunk) :
    operandText c = operandsText (c.map fun b => withMark 2 b.toNat) :=
  (List.flatMap_map (fun b : Byte => withMark 2 b.toNat) (fun cs => space :: cs) c).symm

/-- A mnemonic that reads its operands as an update command's, and the bytes of that command behind it. -/
theorem assemble_update {m : List Char} {c : Chunk} {i : Instr} (hm : isBareWord m = true)
    (hcmd : m ≠ ['.', 'c', 'm', 'd']) (hi : updateOf c = some i)
    (hread : ∀ operands, assembleMnemonic m operands = assembleUpdate c.length operands) :
    assemble (m ++ operandText c) = some [encode i] := by
  have htokens : (c.map fun b => withMark 2 b.toNat).map Token.bare = c.map byteToken :=
    List.map_map
  rw [operandText_eq, assemble_line hm hcmd (by simp [isBareWord_withMark]), htokens, hread,
    assembleUpdate_bytes hi]
  rfl

/-- The line of `LOAD`. -/
theorem assemble_load (v : Word) : assemble (render (.load v)) = some [encode (.load v)] := by
  have hline : render (.load v) = ['L', 'O', 'A', 'D'] ++ operandsText [withMark 8 v.toNat] := by
    simp [render, operandsText]
  have hread : ∀ ts, assembleMnemonic ['L', 'O', 'A', 'D'] ts =
      assembleValue (fun v => [.load v]) ts := fun _ => rfl
  rw [hline, assemble_line (by decide) (by decide) (by simp [isBareWord_withMark]), hread,
    List.map_singleton, assembleValue, valueOperand_withMark]
  rfl

/-- The canonical line of a command assembles to its word. -/
theorem assemble_render (i : Instr) : assemble (render i) = some [encode i] := by
  cases i with
  | upd1 | upd2 | upd3 | upd4 => exact assemble_update (by decide) (by decide) rfl fun _ => rfl
  | upd0 | init | read => decide
  | load v => exact assemble_load v

/-- The raw form of a word assembles to the word. -/
theorem assemble_renderRaw (w : CommandWord) : assemble (renderRaw w) = some [w] := by
  have hline : renderRaw w = ['.', 'c', 'm', 'd'] ++ operandsText [withMark 9 w.toNat] := by
    simp [renderRaw, operandsText]
  rw [hline, assemble, lex_line (by decide) (by simp [isBareWord_withMark])]
  change (rawOperand (.bare (withMark 9 w.toNat))).map _ = _
  rw [rawOperand_withMark, Option.map_some]

/-- Settles O37: the reader splits a line at its blanks, since no digit of a number is one, and reads each
number back from its digits. -/
theorem assemblingWhatIsWritten : Obligations.AssemblingWhatIsWritten :=
  ⟨assemble_render, assemble_renderRaw⟩

end Sys2Proof.Machine
end

section
/-! PROOFS. The algorithm (40_update.md R58 to R63): one shift bit by bit and the way back from it, `bytestep`
as one exclusive OR and eight shifts, `update` as a fold between two inversions. -/

namespace Sys2Proof.Machine

/-- A shift bit by bit: with bit 0 clear it stands alone, with bit 0 set the feedback constant is added. -/
theorem getLsbD_bitstep (r : Word) (k : Nat) :
    (bitstep r).getLsbD k = Bool.xor (r.getLsbD (k + 1)) (r.getLsbD 0 && polyRef.getLsbD k) := by
  cases h : r.getLsbD 0 with
  | false =>
    rw [bitstep_of_low_clear h, BitVec.getLsbD_ushiftRight, Nat.add_comm, Bool.false_and,
      Bool.xor_false]
  | true =>
    rw [bitstep_of_low_set h, BitVec.getLsbD_xor, BitVec.getLsbD_ushiftRight, Nat.add_comm,
      Bool.true_and]

/-- Settles O18: the two cases of the definition, and what they have in common bit by bit. -/
theorem bitstepBitByBit : Obligations.BitstepBitByBit :=
  ⟨fun r k _ => getLsbD_bitstep r k, fun _ => bitstep_of_low_set, fun _ => bitstep_of_low_clear,
    by decide, by decide, by decide, by decide, by decide⟩

/-- Settles O19: `bytestep` names the eight shifts one by one. -/
theorem bytestepIsXorThenEightShifts : Obligations.BytestepIsXorThenEightShifts :=
  ⟨bytestep_eq_bitsteps, by decide, by decide, by decide, by decide, by decide, by decide⟩

/-- Settles O20: the three steps are the definition of `update`. -/
theorem updateIsThreeSteps : Obligations.UpdateIsThreeSteps :=
  ⟨fun _ _ => rfl, by decide, by decide +kernel, by decide⟩

/-- Settles O21: the definition of `checksum`, and the empty chunk leaves 0. -/
theorem checksumStartsFromZero : Obligations.ChecksumStartsFromZero :=
  ⟨fun _ => rfl, update_nil _, by decide, by decide +kernel⟩

/-- Any number of chunks one after the other are one chunk (R62). -/
theorem foldl_update (s : Word) (chunks : List Chunk) :
    chunks.foldl update s = update s chunks.flatten := by
  induction chunks generalizing s with
  | nil => exact (update_nil s).symm
  | cons c later ih => rw [List.foldl_cons, ih, update_update, List.flatten_cons]

/-- Settles O22: two chunks join because the inversions between them cancel; a list of chunks and a list of
update commands join by induction. -/
theorem chunkingInvariance : Obligations.ChunkingInvariance :=
  ⟨update_update, fun a b => (update_update _ a b).symm, foldl_update,
    fun s _ h => transactAll_of_isUpdate h s⟩

/-- Settles O23: without a byte the two inversions meet. -/
theorem emptyChunkLeavesTheState : Obligations.EmptyChunkLeavesTheState :=
  ⟨update_nil, update_nil _⟩

/-- Bit 31 of a shifted register tells what bit 0 was: of the two operands of the exclusive OR only the
feedback constant has bit 31 set. -/
theorem getLsbD_bitstep_31 (r : Word) : (bitstep r).getLsbD 31 = r.getLsbD 0 := by
  rw [getLsbD_bitstep, BitVec.getLsbD_of_ge r (31 + 1) (by decide), Bool.false_xor,
    show polyRef.getLsbD 31 = true by decide, Bool.and_true]

/-- Shifting right and back left loses bit 0 alone. -/
theorem getLsbD_shiftRight_shiftLeft_one (r : Word) {k : Nat} (hk : k < 32) :
    ((r >>> 1) <<< 1).getLsbD k = (!decide (k = 0) && r.getLsbD k) := by
  cases k with
  | zero => simp
  | succ k => simp [hk, Nat.add_comm]

/-- `bitstepInverse` undoes `bitstep` (42_datapath_forms.md R86 (c)). -/
theorem bitstepInverse_bitstep (r : Word) : bitstepInverse (bitstep r) = r := by
  rw [bitstepInverse, getLsbD_bitstep_31]
  apply BitVec.eq_of_getLsbD_eq
  intro k hk
  cases h : r.getLsbD 0 with
  | false =>
    rw [if_neg (by decide), bitstep_of_low_clear h, getLsbD_shiftRight_shiftLeft_one r hk]
    cases k with
    | zero => rw [h]; rfl
    | succ k => rfl
  | true =>
    rw [if_pos rfl, bitstep_of_low_set h, BitVec.xor_assoc, BitVec.xor_self, BitVec.xor_zero,
      BitVec.getLsbD_or, getLsbD_shiftRight_shiftLeft_one r hk]
    cases k with
    | zero => rw [h]; rfl
    | succ k => simp

/-- Any number of shifts is one-to-one. -/
theorem bitsteps_injective (k : Nat) : Function.Injective (bitsteps k) := by
  induction k with
  | zero => exact Function.injective_id
  | succ k ih => exact ih.comp (Function.LeftInverse.injective bitstepInverse_bitstep)

/-- Shifts give 0 from 0 alone. -/
theorem bitsteps_eq_zero_iff {k : Nat} {r : Word} : bitsteps k r = 0#32 ↔ r = 0#32 := by
  have hzero : bitsteps k 0#32 = 0#32 := by simpa using bitsteps_xor k 0#32 0#32
  exact ⟨fun h => bitsteps_injective k (h.trans hzero.symm), fun h => h ▸ hzero⟩

/-- `RAW = 0` absorbs zero bytes without a trace, so `CRC = 0xFFFFFFFF` does (R69 (b)). -/
theorem update_allOnes_zeros (n : Nat) :
    update 0xFFFFFFFF#32 (List.replicate n 0x00#8) = 0xFFFFFFFF#32 := by
  have hraw : (List.replicate n 0x00#8).foldl bytestep 0x00000000#32 = 0x00000000#32 := by
    induction n with
    | zero => rfl
    | succ n ih =>
      rw [List.replicate_succ, List.foldl_cons, show bytestep 0#32 0#8 = 0#32 by decide, ih]
  rw [update_eq, show ~~~0xFFFFFFFF#32 = 0x00000000#32 from rfl, hraw]
  rfl

end Sys2Proof.Machine
end

section
/-! PROOFS. The order of two bytes (40_update.md R70): exchanging them changes the raw register by the shifts
of a value that is 0 only if the bytes are equal. -/

namespace Sys2Proof.Machine

/-- What exchanging two bytes changes in the raw register depends on their exclusive OR alone. -/
theorem bytestep_exchange_xor (r : Word) (b0 b1 : Byte) :
    bytestep (bytestep r b0) b1 ^^^ bytestep (bytestep r b1) b0 =
      bitsteps 8 (bitsteps 8 (zext32 (b0 ^^^ b1)) ^^^ zext32 (b0 ^^^ b1)) := by
  have hz : zext32 (b0 ^^^ b1) = zext32 b0 ^^^ zext32 b1 := BitVec.setWidth_xor
  simp only [bytestep_eq_bitsteps, hz, bitsteps_xor]
  generalize bitsteps 8 (bitsteps 8 r) = r2
  calc _ = r2 ^^^ r2 ^^^
        (bitsteps 8 (bitsteps 8 (zext32 b0)) ^^^ bitsteps 8 (bitsteps 8 (zext32 b1)) ^^^
          (bitsteps 8 (zext32 b0) ^^^ bitsteps 8 (zext32 b1))) := by ac_rfl
    _ = _ := by rw [BitVec.xor_self, BitVec.zero_xor]

/-- Eight shifts keep no zero-extended byte but 0. -/
theorem bitsteps_eight_zext32_eq_iff (b : Byte) : bitsteps 8 (zext32 b) = zext32 b ↔ b = 0#8 := by
  revert b
  decide +kernel

/-- Exchanging two bytes changes the result unless they are equal. -/
theorem update_exchange_iff (crc : Word) (b0 b1 : Byte) :
    update crc [b0, b1] = update crc [b1, b0] ↔ b0 = b1 := by
  rw [update_eq, update_eq, BitVec.not_inj]
  calc bytestep (bytestep (~~~crc) b0) b1 = bytestep (bytestep (~~~crc) b1) b0
      ↔ bitsteps 8 (bitsteps 8 (zext32 (b0 ^^^ b1)) ^^^ zext32 (b0 ^^^ b1)) = 0#32 := by
        rw [← bytestep_exchange_xor (~~~crc), BitVec.xor_eq_zero_iff]
    _ ↔ b0 ^^^ b1 = 0#8 := by
        rw [bitsteps_eq_zero_iff, BitVec.xor_eq_zero_iff, bitsteps_eight_zext32_eq_iff]
    _ ↔ b0 = b1 := BitVec.xor_eq_zero_iff

end Sys2Proof.Machine
end

section
/-! PROOFS. The word form (42_datapath_forms.md R83): the lanes of a word enter the register together, since a
byte placed in lane k reaches the low end just when the k lanes before it have been shifted out. -/

namespace Sys2Proof.Machine

/-- One shift moves a byte that stands above bit 0 and below bit 32 down by one bit, without feedback. -/
theorem bitstep_zext32_shiftLeft (b : Byte) {m : Nat} (hm : m + 8 < 32) :
    bitstep (zext32 b <<< (m + 1)) = zext32 b <<< m := by
  have hlow : (zext32 b <<< (m + 1)).getLsbD 0 = false := by simp
  rw [bitstep_of_low_clear hlow]
  apply BitVec.eq_of_getLsbD_eq
  intro j hj
  have hsub : 1 + j - (m + 1) = j - m := by omega
  have hlt : decide (1 + j < m + 1) = decide (j < m) := decide_eq_decide.mpr (by omega)
  rw [BitVec.getLsbD_ushiftRight, BitVec.getLsbD_shiftLeft, BitVec.getLsbD_shiftLeft, hsub, hlt]
  by_cases htop : 1 + j < 32
  · simp [htop, hj]
  · have hbit : (zext32 b).getLsbD (j - m) = false := by
      rw [getLsbD_zext32, decide_eq_false (by omega), Bool.false_and]
    simp [hbit]

/-- As many shifts as a byte stands above bit 0 bring it down to bit 0. -/
theorem bitsteps_zext32_shiftLeft (b : Byte) {m : Nat} (hm : m + 8 ≤ 32) :
    bitsteps m (zext32 b <<< m) = zext32 b := by
  induction m with
  | zero => exact BitVec.shiftLeft_zero _
  | succ m ih => rw [bitsteps, bitstep_zext32_shiftLeft b (by omega), ih (by omega)]

/-- The first `n + 1` lanes are the first `n` and lane `n`. -/
theorem usedLanes_succ {n : Nat} (hn : n < 4) (d : Word) :
    usedLanes (n + 1) d = usedLanes n d ^^^ inLane (lane d n) n := by
  have hmask (m j : Nat) (hj : j < 32) :
      (BitVec.ofNat 32 (2 ^ m - 1)).getLsbD j = decide (j < m) := by
    rw [BitVec.getLsbD_ofNat, Nat.testBit_two_pow_sub_one, decide_eq_true hj, Bool.true_and]
  apply BitVec.eq_of_getLsbD_eq
  intro j hj
  rw [usedLanes, usedLanes, BitVec.getLsbD_xor, BitVec.getLsbD_and, BitVec.getLsbD_and,
    hmask _ _ hj, hmask _ _ hj, getLsbD_inLane _ hn]
  by_cases hlow : 8 * n ≤ j
  · by_cases hhigh : j < 8 * (n + 1)
    · rw [getLsbD_lane _ _ _ (by omega), Nat.add_sub_cancel' hlow]
      simp [hlow, hhigh, Nat.not_lt.mpr hlow]
    · rw [BitVec.getLsbD_of_ge (lane d n) _ (by omega)]
      simp [hlow, hhigh]
  · have hhigh : j < 8 * (n + 1) := by omega
    simp [hlow, hhigh, Nat.lt_of_not_le hlow]

/-- Absorbing the first `n` lanes one by one is absorbing them at once. -/
theorem foldl_bytestep_firstLanes {n : Nat} (hn : n ≤ 4) (r d : Word) :
    (firstLanes n d).foldl bytestep r = bitsteps (8 * n) (r ^^^ usedLanes n d) := by
  induction n with
  | zero => simp [firstLanes, usedLanes, bitsteps]
  | succ n ih =>
    have hlanes : firstLanes (n + 1) d = firstLanes n d ++ [lane d n] := by
      simp [firstLanes, List.range_succ]
    have hshifted : bitsteps (8 * n) (inLane (lane d n) n) = zext32 (lane d n) :=
      bitsteps_zext32_shiftLeft (lane d n) (by omega)
    calc (firstLanes (n + 1) d).foldl bytestep r
        = bytestep (bitsteps (8 * n) (r ^^^ usedLanes n d)) (lane d n) := by
          rw [hlanes, List.foldl_append, ih (by omega)]; rfl
      _ = bitsteps 8 (bitsteps (8 * n) (r ^^^ usedLanes n d ^^^ inLane (lane d n) n)) := by
          rw [bytestep_eq_bitsteps, bitsteps_xor (8 * n) (r ^^^ usedLanes n d), hshifted]
      _ = bitsteps (8 * (n + 1)) (r ^^^ usedLanes (n + 1) d) := by
          rw [usedLanes_succ (by omega), ← BitVec.xor_assoc, Nat.mul_succ, bitsteps_add]

/-- The word form is the update with the first `n` lanes (R83). -/
theorem wordForm_eq_update {n : Nat} (hn : n ≤ 4) (crc data : Word) :
    wordForm n crc data = update crc (firstLanes n data) := by
  rw [wordForm, update_eq, foldl_bytestep_firstLanes hn]

end Sys2Proof.Machine
end

section
/-! PROOFS. The update commands (40_update.md R68 to R72): each absorbs the chunk of its lanes and changes
nothing but `CRC`. -/

namespace Sys2Proof.Machine

/-- A byte in lane 0 is the byte zero-extended. -/
theorem inLane_zero (b : Byte) : inLane b 0 = b.setWidth 32 := BitVec.shiftLeft_zero _

/-- An update command absorbs its chunk and changes nothing else. -/
theorem exec_of_isUpdate {i : Instr} (h : isUpdate i = true) (s : State) :
    exec i s = .next { s with crc := update s.crc (chunkOf i) } := by
  cases i with
  | init | load | read => cases h
  | upd0 | upd1 | upd2 | upd3 | upd4 => rfl

/-- An update command written out: its bytes are absorbed, lane 0 first, between two complements. -/
theorem exec_of_isUpdate_raw {i : Instr} (h : isUpdate i = true) (s : State) :
    exec i s = .next { s with crc := ~~~((chunkOf i).foldl bytestep (~~~s.crc)) } := by
  rw [exec_of_isUpdate h, update_eq]

/-- An update command's next state, from the value it leaves in `CRC`. -/
theorem exec_of_update_eq {i : Instr} {s : State} {v : Word} (h : isUpdate i = true)
    (hv : update s.crc (chunkOf i) = v) : exec i s = .next { s with crc := v } := by
  rw [exec_of_isUpdate h, hv]

/-- An `UPD0` may be left out of a command sequence. -/
theorem transactAll_insert_upd0 (crc : Word) (before after : List Instr) :
    transactAll crc (before ++ .upd0 :: after) = transactAll crc (before ++ after) := by
  have hcons (c : Word) : transactAll c (.upd0 :: after) = transactAll c after := by
    simp [transactAll, transact]
  rw [transactAll_append, transactAll_append, hcons]

/-- Copies of one update command come to one `update` with the copies of its chunk. -/
theorem transactAll_replicate {i : Instr} (h : isUpdate i = true) (crc : Word) (n : Nat) :
    transactAll crc (List.replicate n i) =
      (update crc (List.replicate n (chunkOf i)).flatten, []) := by
  have hall : ∀ j ∈ List.replicate n i, isUpdate j = true := by
    intro j hj
    rwa [List.eq_of_mem_replicate hj]
  rw [transactAll_of_isUpdate hall, List.flatMap_replicate]

/-- Settles O1: absorbing the empty chunk leaves `CRC`, hence the whole state. -/
theorem upd0AbsorbsNothing : Obligations.Upd0AbsorbsNothing := by
  refine ⟨fun _ hop => decode_of_op decode_op0 (congrArg BitVec.toNat hop), by decide,
    exec_of_isUpdate rfl, fun s => exec_of_update_eq rfl (update_nil s.crc), transactAll_insert_upd0,
    fun n => ?_, exec_of_update_eq (by decide) (by decide)⟩
  have hempty : (List.replicate n (chunkOf .upd0)).flatten = [] := by simp [chunkOf]
  rw [transactAll_append, transactAll_replicate rfl, hempty, update_nil]
  rfl

/-- Settles O2: the meaning of an update command with a chunk of one byte; `RAW = 0` absorbs zero bytes
without a trace. -/
theorem upd1AbsorbsLaneZero : Obligations.Upd1AbsorbsLaneZero := by
  refine ⟨fun _ hop => decode_of_op decode_op1 (congrArg BitVec.toNat hop), fun b0 => ?_,
    fun _ => exec_of_isUpdate rfl, fun _ => exec_of_isUpdate_raw rfl, by decide, by decide +kernel,
    by decide +kernel, by decide +kernel, fun n => ?_, by decide +kernel, by decide, by decide,
    exec_of_update_eq (by decide) (by decide)⟩
  · rw [← inLane_zero]; rfl
  · rw [transactAll_replicate rfl, chunkOf, List.flatten_replicate_singleton, update_allOnes_zeros]

/-- Settles O3: the meaning of an update command with a chunk of two bytes, which two `UPD1`s carry as
well and which `update_exchange_iff` does not let be exchanged. -/
theorem upd2AbsorbsTwoLanes : Obligations.Upd2AbsorbsTwoLanes := by
  refine ⟨fun _ hop => decode_of_op decode_op2 (congrArg BitVec.toNat hop), fun b0 b1 => ?_,
    fun _ _ => exec_of_isUpdate rfl, fun _ _ => exec_of_isUpdate_raw rfl, update_exchange_iff,
    fun crc b0 b1 => ?_, by decide +kernel, by decide +kernel,
    exec_of_update_eq (by decide) (by decide +kernel)⟩
  · rw [← inLane_zero]; rfl
  · rw [transactAll_of_isUpdate (by simp [isUpdate]), transactAll_of_isUpdate (by simp [isUpdate])]
    rfl

/-- Settles O4: the meaning of an update command with a chunk of three bytes, the lanes 0 to 2. -/
theorem upd3AbsorbsThreeLanes : Obligations.Upd3AbsorbsThreeLanes := by
  refine ⟨fun _ hop => decode_of_op decode_op3 (congrArg BitVec.toNat hop), fun b0 b1 b2 => ?_,
    fun _ _ _ => exec_of_isUpdate rfl, fun _ _ _ => exec_of_isUpdate_raw rfl, fun d d' h => ?_,
    by decide +kernel, by decide +kernel, exec_of_update_eq (by decide) (by decide +kernel)⟩
  · rw [← inLane_zero]; rfl
  · rw [decode_op3, decode_op3, h 0 (by decide), h 1 (by decide), h 2 (by decide)]

/-- `UPD4` ignores no bit of `data`. -/
theorem decode_op4_injective {d d' : Word}
    (h : decode (commandWord 4#3 d) = decode (commandWord 4#3 d')) : d = d' := by
  obtain ⟨-, hdata⟩ := canonical_eq_iff.mp (decode_eq_iff_canonical_eq.mp h)
  have hused : usedBits (opOf (commandWord 4#3 d)) = BitVec.allOnes 32 := by
    rw [opOf_commandWord]; rfl
  simpa only [hused, BitVec.and_allOnes, dataOf_commandWord] using hdata

/-- `UPD4` is the word form on the whole of `data`. -/
theorem transact_op4_eq_wordForm (d crc : Word) :
    (transact crc (decode (commandWord 4#3 d))).1 = wordForm 4 crc d := by
  rw [wordForm_eq_update (Nat.le_refl 4), decode_op4]
  rfl

/-- Settles O5: the meaning of an update command with a chunk of four bytes, all the lanes of `data`. -/
theorem upd4AbsorbsFourLanes : Obligations.Upd4AbsorbsFourLanes := by
  refine ⟨fun _ hop => decode_of_op decode_op4 (congrArg BitVec.toNat hop), fun b0 b1 b2 b3 => ?_,
    fun _ _ _ _ => exec_of_isUpdate rfl, fun _ _ _ _ => exec_of_isUpdate_raw rfl,
    fun _ _ => decode_op4_injective, transact_op4_eq_wordForm,
    exec_of_update_eq (by decide) (by decide +kernel), by decide, by decide +kernel,
    by decide +kernel, exec_of_update_eq (by decide) (by decide +kernel)⟩
  rw [← inLane_zero]; rfl

end Sys2Proof.Machine
end

section
/-! PROOFS. State transfer (41_state_transfer.md R73 to R76): `INIT` and `LOAD` write `CRC` and forget what it
held, `READ` answers it and leaves it. -/

namespace Sys2Proof.Machine

/-- `LOAD` writes its operand to `CRC` and changes nothing else. -/
theorem exec_load (v : Word) (s : State) : exec (.load v) s = .next { s with crc := v } :=
  exec_eq_setCrc_of_ne_read (by simp) s

/-- `INIT` writes 0 to `CRC` and changes nothing else. -/
theorem exec_init (s : State) : exec .init s = .next { s with crc := 0x00000000#32 } :=
  exec_eq_setCrc_of_ne_read (by simp) s

/-- `READ` appends `CRC` to the responses and changes nothing else. -/
theorem exec_read (s : State) : exec .read s = .next { s with responses := s.responses ++ [s.crc] } :=
  exec_eq_transact .read s

/-- At `CRC` 0 an `INIT` changes nothing. -/
theorem exec_init_of_crc_zero {s : State} (h : s.crc = 0x00000000#32) : exec .init s = .next s := by
  rw [exec_init, ← h]

/-- What a word executes as, from the command it decodes to. -/
theorem exec_decode {w : CommandWord} {i : Instr} {s t : State} (hw : decode w = i)
    (h : exec i s = .next t) : exec (decode w) s = .next t := by
  rw [hw, h]

/-- A sequence behind a `LOAD` goes on from the value loaded, whatever `CRC` held. -/
theorem transactAll_load (crc v : Word) (after : List Instr) :
    transactAll crc (.load v :: after) = transactAll v after := rfl

/-- A `READ` anywhere in a sequence leaves the last `CRC`, and its response, the value the commands before it
left, stands between theirs and those of the commands after it. -/
theorem transactAll_append_read (crc : Word) (before after : List Instr) :
    transactAll crc (before ++ .read :: after) =
      ((transactAll crc (before ++ after)).1,
        (transactAll crc before).2 ++
          (transactAll crc before).1 :: (transactAll (transactAll crc before).1 after).2) := by
  rw [transactAll_append, transactAll_append]
  rfl

/-- A `READ` in the middle of an item answers the checksum of the bytes absorbed so far; the item goes on. -/
theorem transactAll_read_in_item {before after : List Instr}
    (h : ∀ i ∈ before ++ after, isUpdate i = true) :
    transactAll 0x00000000#32 (before ++ .read :: after) =
      (checksum (before.flatMap chunkOf ++ after.flatMap chunkOf),
        [checksum (before.flatMap chunkOf)]) := by
  obtain ⟨hbefore, hafter⟩ := List.forall_mem_append.mp h
  rw [transactAll_append_read, transactAll_of_isUpdate h, transactAll_of_isUpdate hbefore,
    transactAll_of_isUpdate hafter, List.flatMap_append]
  rfl

/-- Settles O7: `LOAD` is one write of `CRC`, so what comes behind it starts from its operand. -/
theorem loadSetsTheState : Obligations.LoadSetsTheState := by
  refine ⟨fun _ hop => decode_of_op decode_op6 (congrArg BitVec.toNat hop), fun _ => rfl, exec_load,
    fun v v' s => ?_, fun crc v updates h => ?_, fun _ _ _ after => transactAll_load _ _ after,
    exec_decode (by decide) (exec_load _ _)⟩
  · rw [exec_load, exec_load]
  · rw [transactAll_load, transactAll_of_isUpdate h]

/-- Settles O8: `READ` is one response with `CRC` as it is, so the commands around it come to what they come
to without it. -/
theorem readReturnsTheState : Obligations.ReadReturnsTheState :=
  ⟨fun _ hop => decode_of_op decode_op7 (congrArg BitVec.toNat hop), by decide, exec_read,
    fun _ _ => transactAll_read_in_item,
    fun crc before after => congrArg Prod.snd (transactAll_append_read crc before after),
    fun crc => transactAll_append_read crc [] [.read], transactAll_append_read _ [] [],
    exec_decode (by decide) (exec_read _)⟩

/-- Settles O6: `INIT` is `LOAD 0`, and `INIT` then `READ` is `CHECKSUM` of no byte. -/
theorem initStartsAnItem : Obligations.InitStartsAnItem := by
  refine ⟨fun _ hop => decode_of_op decode_op5 (congrArg BitVec.toNat hop), by decide, exec_init,
    fun s v => ?_, fun _ => exec_init_of_crc_zero, fun s => ?_, fun crc => ?_,
    exec_decode (by decide) (exec_init _)⟩
  · rw [exec_init, exec_init]
  · rw [exec_init, exec_load]
  · exact (transactAll_checksumCommands crc []).trans (by rw [checksum, update_nil])

end Sys2Proof.Machine
end

section
/-! PROOFS. The word form on every update command (42_datapath_forms.md R83), and the engine that stores the
raw register, which computes by it (R89). -/

namespace Sys2Proof.Machine

/-- A command carries at most four bytes (30_encoding.md R47). -/
theorem chunkOf_length_le (i : Instr) : (chunkOf i).length ≤ 4 := by
  cases i <;> simp [chunkOf]

/-- The value of `op` of an update command is at most the number of lanes. -/
theorem opOf_le_of_isUpdate {w : CommandWord} (h : isUpdate (decode w) = true) :
    (opOf w).toNat ≤ 4 := by
  rw [← opcode_decode, ← chunkOf_length h]
  exact chunkOf_length_le _

/-- Settles O27: the word form is the update with the first `n` lanes, and these are the chunk of an update
command. -/
theorem wordFormIsTheUpdate : Obligations.WordFormIsTheUpdate := by
  refine ⟨fun n crc data hn => wordForm_eq_update hn crc data, fun w s h => ?_⟩
  rw [exec_of_isUpdate h, chunkOf_decode h, wordForm_eq_update (opOf_le_of_isUpdate h)]

/-- The word form without the inversions is the update on the complement. -/
theorem bitsteps_not_xor_usedLanes {n : Nat} (hn : n ≤ 4) (crc data : Word) :
    bitsteps (8 * n) (~~~crc ^^^ usedLanes n data) = ~~~update crc (firstLanes n data) := by
  rw [← wordForm_eq_update hn, wordForm, BitVec.not_not]

/-- An update command on the raw register is the word form without the inversions (R83, R89). -/
theorem rawTransact_of_isUpdate {w : CommandWord} (h : isUpdate (decode w) = true) (raw : Word) :
    rawTransact raw w =
      (bitsteps (8 * (opOf w).toNat) (raw ^^^ usedLanes (opOf w).toNat (dataOf w)), none) := by
  induction w using forall_word_of_op with
  | h0 d | h1 d | h2 d | h3 d | h4 d =>
    simp [rawTransact, decode_op0, decode_op1, decode_op2, decode_op3, decode_op4]
  | h5 d | h6 d | h7 d => simp [decode_op5, decode_op6, decode_op7, isUpdate] at h

/-- One command keeps the raw register the complement of `CRC` and gives the same response (R89). -/
theorem rawTransact_not (crc : Word) (w : CommandWord) :
    rawTransact (~~~crc) w = (~~~(transact crc (decode w)).1, (transact crc (decode w)).2) := by
  cases h : isUpdate (decode w) with
  | true =>
    rw [rawTransact_of_isUpdate h, bitsteps_not_xor_usedLanes (opOf_le_of_isUpdate h),
      ← chunkOf_decode h, transact_of_isUpdate h]
  | false =>
    rw [rawTransact]
    cases hw : decode w with
    | upd0 | upd1 | upd2 | upd3 | upd4 => simp [hw, isUpdate] at h
    | init | load | read => simp [transact]

/-- Settles O34: one command keeps the complement, so a sequence of commands does. -/
theorem storingRawIsTheSameEngine : Obligations.StoringRawIsTheSameEngine := by
  refine ⟨by decide, fun crc words => ?_⟩
  induction words generalizing crc with
  | nil => rfl
  | cons w later ih => rw [rawTransactAll, rawTransact_not, ih]; rfl

end Sys2Proof.Machine
end

section
/-! PROOFS. Linearity (42_datapath_forms.md R86): the old register and the data enter separately, and the
shifts have an inverse, so that every value is the checksum of one four-byte message. -/

namespace Sys2Proof.Machine

/-- What one operand of an exclusive OR must be. -/
theorem word_xor_eq_iff {a b c : Word} : a ^^^ b = c ↔ b = a ^^^ c := by
  rw [← BitVec.xor_right_inj a, ← BitVec.xor_assoc, BitVec.xor_self, BitVec.zero_xor]

/-- `RAW` contributes its shifts, the chunk what it makes of 0 (R86 (a)). -/
theorem foldl_bytestep_eq (r : Word) (c : Chunk) :
    c.foldl bytestep r = bitsteps (8 * c.length) r ^^^ rawContribution c := by
  rw [← BitVec.zero_xor (x := r), foldl_bytestep_xor, BitVec.zero_xor, BitVec.xor_comm]
  rfl

/-- Settles O30: absorbing is linear in the register and the data together. -/
theorem bitstepIsLinear : Obligations.BitstepIsLinear := by
  refine ⟨bitstep_xor, by decide, fun r b => foldl_bytestep_eq r [b], foldl_bytestep_eq,
    fun s1 s2 c => ?_, update_allOnes_zeros⟩
  have hs : s1 ^^^ (s1 ^^^ s2) = s2 := (word_xor_eq_iff.mp rfl).symm
  rw [word_xor_eq_iff, ← update_xor, hs]

/-- A one-to-one map of the finitely many words has every word as a value, so `bitstep` undoes
`bitstepInverse` as well (R86 (c)). -/
theorem bitstep_bitstepInverse (y : Word) : bitstep (bitstepInverse y) = y :=
  Function.LeftInverse.rightInverse_of_surjective bitstepInverse_bitstep
    (Finite.injective_iff_surjective.mp
      (Function.LeftInverse.injective bitstepInverse_bitstep)) y

/-- Absorbing a byte is one-to-one. -/
theorem bytestep_injective (b : Byte) : Function.Injective fun r => bytestep r b :=
  fun _ _ h => BitVec.xor_left_inj _ |>.mp (bitsteps_injective 8 h)

/-- Absorbing a chunk is one-to-one. -/
theorem foldl_bytestep_injective (c : Chunk) : Function.Injective fun r => c.foldl bytestep r := by
  induction c with
  | nil => exact Function.injective_id
  | cons b c ih => exact ih.comp (bytestep_injective b)

/-- An update is one-to-one on the states. -/
theorem update_injective (c : Chunk) : Function.Injective fun s => update s c := by
  intro s s' h
  simp only [update_eq, BitVec.not_inj] at h
  exact BitVec.not_inj.mp (foldl_bytestep_injective c h)

/-- Settles O31: what is one-to-one on the finitely many words is onto. -/
theorem updateIsABijection : Obligations.UpdateIsABijection :=
  ⟨bitstepInverse_bitstep, bitstep_bitstepInverse,
    fun b => Finite.injective_iff_bijective.mp (bytestep_injective b),
    fun c => Finite.injective_iff_bijective.mp (update_injective c)⟩

/-- The last of several shifts. -/
theorem bitsteps_succ (k : Nat) (r : Word) : bitsteps (k + 1) r = bitstep (bitsteps k r) :=
  bitsteps_add k 1 r

/-- `bitstepsInverse` undoes as many shifts. -/
theorem bitsteps_eq_iff (k : Nat) (r y : Word) : bitsteps k r = y ↔ r = bitstepsInverse k y := by
  induction k generalizing y with
  | zero => rfl
  | succ k ih =>
    calc bitsteps (k + 1) r = y
        ↔ bitstep (bitsteps k r) = y := by rw [bitsteps_succ]
      _ ↔ bitsteps k r = bitstepInverse y :=
        ⟨fun h => by rw [← h, bitstepInverse_bitstep], fun h => by rw [h, bitstep_bitstepInverse]⟩
      _ ↔ r = bitstepsInverse (k + 1) y := ih (bitstepInverse y)

/-- All four lanes are the whole word. -/
theorem usedLanes_four (d : Word) : usedLanes 4 d = d := BitVec.and_allOnes

/-- Four bytes are the lanes of a word. -/
theorem exists_firstLanes_four {m : Chunk} (hm : m.length = 4) : ∃ d, m = firstLanes 4 d := by
  obtain ⟨b0, b1, b2, b3, rfl⟩ := List.length_eq_four.mp hm
  refine ⟨(Instr.upd4 b0 b1 b2 b3).dataField, ?_⟩
  have h := chunkOf_decode (w := encode (.upd4 b0 b1 b2 b3)) (by rw [decode_encode]; rfl)
  rwa [decode_encode, encode, opOf_commandWord, dataOf_commandWord] at h

/-- The four lanes of a word determine it. -/
theorem firstLanes_four_inj {d d' : Word} : firstLanes 4 d = firstLanes 4 d' ↔ d = d' := by
  refine ⟨fun h => decode_op4_injective ?_, congrArg _⟩
  obtain ⟨h0, h1, h2, h3, -⟩ : lane d 0 = lane d' 0 ∧ lane d 1 = lane d' 1 ∧
      lane d 2 = lane d' 2 ∧ lane d 3 = lane d' 3 ∧ True := by
    simpa [firstLanes, List.range_succ] using h
  rw [decode_op4, decode_op4, h0, h1, h2, h3]

/-- Settles O32: the checksum of four bytes is 32 shifts of their word, taken from all ones, and each of
these steps is undone in the definition of `messageOf`. -/
theorem everyValueIsOneChecksum : Obligations.EveryValueIsOneChecksum := by
  intro v m hm
  obtain ⟨d, rfl⟩ := exists_firstLanes_four hm
  calc checksum (firstLanes 4 d) = v
      ↔ bitsteps 32 (0xFFFFFFFF#32 ^^^ d) = ~~~v := by
        rw [checksum, ← wordForm_eq_update (Nat.le_refl 4), wordForm, usedLanes_four,
          BitVec.not_eq_comm]
        rfl
    _ ↔ 0xFFFFFFFF#32 ^^^ d = bitstepsInverse 32 (~~~v) := bitsteps_eq_iff 32 _ _
    _ ↔ d = 0xFFFFFFFF#32 ^^^ bitstepsInverse 32 (~~~v) := word_xor_eq_iff
    _ ↔ firstLanes 4 d = messageOf v := firstLanes_four_inj.symm

end Sys2Proof.Machine
end

section
/-! PROOFS. The table form and the 32 equations of a byte step (42_datapath_forms.md R84, R85): the eight bits
that are shifted out choose the constant that is added to what stays. -/

namespace Sys2Proof.Machine

/-- Shifts without feedback: as long as only zero bits are tested, the register is shifted right. -/
theorem bitsteps_of_low_clear {k : Nat} {r : Word} (h : ∀ j < k, r.getLsbD j = false) :
    bitsteps k r = r >>> k := by
  induction k generalizing r with
  | zero => exact (BitVec.ushiftRight_zero r).symm
  | succ k ih =>
    have hshifted : ∀ j < k, (r >>> 1).getLsbD j = false := fun j hj => by
      rw [BitVec.getLsbD_ushiftRight]
      exact h _ (by omega)
    rw [bitsteps, bitstep_of_low_clear (h 0 (by omega)), ih hshifted, ← BitVec.shiftRight_add,
      Nat.add_comm]

/-- A zero-extended byte is shifted out by eight places. -/
theorem zext32_shiftRight_eight (b : Byte) : zext32 b >>> 8 = 0#32 := by
  apply BitVec.eq_of_getLsbD_eq
  intro j _
  rw [BitVec.getLsbD_ushiftRight, getLsbD_zext32, decide_eq_false (by omega), Bool.false_and,
    BitVec.getLsbD_zero]

/-- The exclusive OR with its own low byte clears a register's low byte. -/
theorem getLsbD_xor_lowByte (r : Word) {j : Nat} (hj : j < 8) :
    (r ^^^ zext32 (r.setWidth 8)).getLsbD j = false := by
  rw [BitVec.getLsbD_xor, getLsbD_zext32, BitVec.getLsbD_setWidth, decide_eq_true hj,
    Bool.true_and, Bool.true_and, Bool.xor_self]

/-- Eight shifts: the upper 24 bits move down, and the low byte adds its table entry (R85). -/
theorem bitsteps_eight_eq_table (r : Word) :
    bitsteps 8 r = (r >>> 8) ^^^ tableEntry (r.setWidth 8) := by
  calc bitsteps 8 r
      = bitsteps 8 (r ^^^ zext32 (r.setWidth 8)) ^^^ bitsteps 8 (zext32 (r.setWidth 8)) := by
        rw [← bitsteps_xor, BitVec.xor_assoc, BitVec.xor_self, BitVec.xor_zero]
    _ = (r >>> 8) ^^^ tableEntry (r.setWidth 8) := by
        rw [bitsteps_of_low_clear (fun _ => getLsbD_xor_lowByte r),
          BitVec.ushiftRight_xor_distrib, zext32_shiftRight_eight, BitVec.xor_zero, tableEntry,
          bytestep_eq_bitsteps, BitVec.zero_xor]

/-- The table form is `bytestep` (R85). -/
theorem bytestep_eq_tableStep (r : Word) (b : Byte) : bytestep r b = tableStep r b := by
  rw [bytestep_eq_bitsteps, bitsteps_eight_eq_table, BitVec.ushiftRight_xor_distrib,
    zext32_shiftRight_eight, BitVec.xor_zero, tableStep]

/-- The table the rule prints is `T[0]` to `T[255]` (R85). -/
theorem printedTable_eq :
    printedTable = (List.range 256).map fun i => tableEntry (BitVec.ofNat 8 i) := by
  decide +kernel

/-- The printed table read at a byte. -/
theorem printedTable_getD (b : Byte) : printedTable.getD b.toNat 0#32 = tableEntry b := by
  have hb : b.toNat < 256 := b.isLt
  rw [printedTable_eq, List.getD_eq_getElem?_getD, List.getElem?_map, List.getElem?_range hb,
    Option.map_some, Option.getD_some, BitVec.ofNat_toNat, BitVec.setWidth_eq]

/-- Settles O29: the printed table is `T`, and eight shifts add the entry of the low byte. -/
theorem tableFormIsBytestep : Obligations.TableFormIsBytestep := by
  refine ⟨by rw [printedTable_eq, List.length_map, List.length_range], printedTable_getD,
    fun r b => ?_, printedTable_getD 0#8, (printedTable_getD 1#8).trans (by decide),
    (printedTable_getD 128#8).trans (by decide), (printedTable_getD 255#8).trans (by decide)⟩
  rw [bytestep_eq_tableStep, tableStep, printedTable_getD]

/-- The bit of the old register in each equation is the one that the shift by a byte brings (R84). -/
theorem bytestepEquations_shifted :
    ∀ k < 32, (bytestepEquations.getD k ([], none)).2 = if k < 24 then some (k + 8) else none := by
  decide

/-- The equations use the eight bits `e_0` to `e_7` (R84). -/
theorem bytestepEquations_lt :
    ∀ k < 32, ∀ j ∈ (bytestepEquations.getD k ([], none)).1, j < 8 := by
  decide

/-- What holds of the bytes with one bit and is kept by exclusive OR holds of every byte. -/
theorem byte_xor_induction {P : Byte → Prop} (zero : P 0#8) (bit : ∀ j < 8, P (1#8 <<< j))
    (xor : ∀ e e', P e → P e' → P (e ^^^ e')) (e : Byte) : P e := by
  have hsum : ∀ e : Byte, e = ((List.range 8).filter e.getLsbD).foldl
      (fun a j => a ^^^ 1#8 <<< j) 0#8 := by decide +kernel
  rw [hsum e]
  refine List.foldlRecOn _ _ zero fun a ha j hj => ?_
  exact xor a _ ha (bit j (List.mem_range.mp (List.mem_of_mem_filter hj)))

/-- An exclusive OR of bits is linear in the byte they are taken from. -/
theorem foldl_xor_bits (js : List Nat) (e e' : Byte) (a a' : Bool) :
    (js.map (e ^^^ e').getLsbD).foldl Bool.xor (Bool.xor a a') =
      Bool.xor ((js.map e.getLsbD).foldl Bool.xor a) ((js.map e'.getLsbD).foldl Bool.xor a') := by
  induction js generalizing a a' with
  | nil => rfl
  | cons j js ih =>
    rw [List.map_cons, List.map_cons, List.map_cons, List.foldl_cons, List.foldl_cons,
      List.foldl_cons, ← ih, BitVec.getLsbD_xor]
    congr 1
    simp only [Bool.xor_assoc, Bool.xor_left_comm]

/-- The table is linear in the byte (R86). -/
theorem tableEntry_xor (e e' : Byte) : tableEntry (e ^^^ e') = tableEntry e ^^^ tableEntry e' := by
  have hz : zext32 (e ^^^ e') = zext32 e ^^^ zext32 e' := BitVec.setWidth_xor
  simp only [tableEntry, bytestep_eq_bitsteps, BitVec.zero_xor, hz, bitsteps_xor]

/-- Without the old register's bit, the equations are the table entry of the byte `e`, bit by bit: both are
linear in `e`, so the bytes with one bit decide it. -/
theorem tableEntry_bits (e : Byte) : ∀ k < 32, (tableEntry e).getLsbD k =
    ((bytestepEquations.getD k ([], none)).1.map e.getLsbD).foldl Bool.xor false := by
  induction e using byte_xor_induction with
  | zero => decide +kernel
  | bit j hj => revert j; decide +kernel
  | xor e e' he he' =>
    intro k hk
    rw [tableEntry_xor, BitVec.getLsbD_xor, he k hk, he' k hk, ← foldl_xor_bits, Bool.xor_self]

/-- The old register's bit may be added last. -/
theorem equationValue_some (r : Word) (d : Byte) (js : List Nat) (i : Nat) :
    equationValue r d (js, some i) = Bool.xor (r.getLsbD i) (equationValue r d (js, none)) := by
  rw [equationValue, equationValue, ← List.foldl_assoc (op := Bool.xor), Bool.xor_false]

/-- The bits `e_j` are those of the low byte that chooses the table entry. -/
theorem equationValue_none (r : Word) (d : Byte) {k : Nat} (hk : k < 32) :
    equationValue r d ((bytestepEquations.getD k ([], none)).1, none) =
      (tableEntry ((r ^^^ zext32 d).setWidth 8)).getLsbD k := by
  rw [tableEntry_bits _ k hk, equationValue]
  congr 1
  refine List.map_congr_left fun j hj => ?_
  have hj8 : j < 8 := bytestepEquations_lt k hk j hj
  rw [BitVec.getLsbD_setWidth, BitVec.getLsbD_xor, getLsbD_zext32, decide_eq_true hj8,
    Bool.true_and, Bool.true_and]

/-- An equation gives its bit of `bytestep`: the bit shifted down, where there is one, and the table
entry's (R84). -/
theorem getLsbD_bytestep (r : Word) (d : Byte) {k : Nat} (hk : k < 32) :
    (bytestep r d).getLsbD k = equationValue r d (bytestepEquations.getD k ([], none)) := by
  have hq : bytestepEquations.getD k ([], none) =
      ((bytestepEquations.getD k ([], none)).1, if k < 24 then some (k + 8) else none) :=
    Prod.ext rfl (bytestepEquations_shifted k hk)
  rw [bytestep_eq_tableStep, tableStep, BitVec.getLsbD_xor, BitVec.getLsbD_ushiftRight, hq,
    Nat.add_comm]
  by_cases h24 : k < 24
  · rw [if_pos h24, equationValue_some, equationValue_none r d hk]
  · rw [if_neg h24, equationValue_none r d hk, BitVec.getLsbD_of_ge r _ (by omega),
      Bool.false_xor]

/-- Settles O28: the equations are the table form, bit by bit. -/
theorem bytestepEquationsHold : Obligations.BytestepEquationsHold :=
  ⟨rfl, fun r d _ => getLsbD_bytestep r d, fun s d => update_eq s [d]⟩

end Sys2Proof.Machine
end

section
/-! PROOFS. The polynomial remainder (42_datapath_forms.md R87): a step of long division is one shift of the
mirrored register, with the coefficient brought down at its other end. -/

namespace Sys2Proof.Machine

/-- A coefficient as it enters the raw register: at bit 31, the coefficient of 1. -/
def topBit (coefficient : Bool) : Word := (BitVec.ofBool coefficient).setWidth 32 <<< 31

/-- A step of long division on the raw register, the mirror image of `divideStep`. -/
def rawDivideStep (r : Word) (coefficient : Bool) : Word := bitstep r ^^^ topBit coefficient

/-- A coefficient is bit 31 and no other. -/
theorem getLsbD_topBit (c : Bool) {k : Nat} (hk : k < 32) :
    (topBit c).getLsbD k = (decide (k = 31) && c) := by
  revert k
  revert c
  decide

/-- The mirrored register bit by bit. -/
theorem getLsbD_reverse_word (r : Word) {k : Nat} (hk : k < 32) :
    r.reverse.getLsbD k = r.getLsbD (31 - k) := by
  rw [BitVec.getLsbD_reverse, BitVec.getMsbD_eq_getLsbD, decide_eq_true hk, Bool.true_and]

/-- The feedback constant is `P(x)` mirrored (R87). -/
theorem getLsbD_polyCanon :
    ∀ k < 32, polyCanon.getLsbD k = polyRef.getLsbD (31 - k) := by
  decide

/-- A step of long division bit by bit: the coefficients move up, the next one is brought down, and `P(x)` is
subtracted if x^32 has come up. -/
theorem getLsbD_divideStep (a : Word) (c : Bool) {k : Nat} (hk : k < 32) :
    (divideStep a c).getLsbD k =
      Bool.xor (if k = 0 then c else a.getLsbD (k - 1)) (a.getLsbD 31 && polyCanon.getLsbD k) := by
  have hnext : ((a <<< 1) ||| (BitVec.ofBool c).setWidth 32).getLsbD k =
      if k = 0 then c else a.getLsbD (k - 1) := by
    cases k with
    | zero => simp
    | succ k => simp [hk, -BitVec.getLsbD_eq_getElem]
  rw [divideStep]
  cases h : a.getLsbD 31 with
  | false => rw [if_neg (by decide), hnext, Bool.false_and, Bool.xor_false]
  | true => rw [if_pos rfl, BitVec.getLsbD_xor, hnext, Bool.true_and]

/-- A step of long division mirrors one on the raw register. -/
theorem divideStep_reverse (r : Word) (c : Bool) :
    divideStep r.reverse c = (rawDivideStep r c).reverse := by
  apply BitVec.eq_of_getLsbD_eq
  intro k hk
  have hmirror : 31 - k < 32 := by omega
  have hlow : r.reverse.getLsbD 31 = r.getLsbD 0 := getLsbD_reverse_word r (by decide)
  rw [getLsbD_divideStep _ _ hk, getLsbD_reverse_word _ hk, hlow, getLsbD_polyCanon k hk,
    rawDivideStep, BitVec.getLsbD_xor, getLsbD_bitstep, getLsbD_topBit _ hmirror]
  by_cases h0 : k = 0
  · subst h0
    rw [if_pos rfl, BitVec.getLsbD_of_ge r (31 - 0 + 1) (by decide), Bool.false_xor,
      decide_eq_true rfl, Bool.true_and, Bool.xor_comm]
  · have hbit : r.reverse.getLsbD (k - 1) = r.getLsbD (31 - k + 1) := by
      rw [getLsbD_reverse_word _ (by omega)]
      congr 1
      omega
    rw [if_neg h0, hbit, decide_eq_false (by omega), Bool.false_and, Bool.xor_false]

/-- Long division is division on the raw register, mirrored. -/
theorem polyMod_eq (p : List Bool) : polyMod p = (p.foldl rawDivideStep 0#32).reverse := by
  have hfold (r : Word) : p.foldl divideStep r.reverse = (p.foldl rawDivideStep r).reverse := by
    induction p generalizing r with
    | nil => rfl
    | cons c p ih => rw [List.foldl_cons, List.foldl_cons, divideStep_reverse, ih]
  have hzero : (0#32).reverse = 0#32 := by decide +kernel
  rw [← hfold, hzero, polyMod]

/-- The remainder of a polynomial, bit k the coefficient of x^k, read on the raw register. -/
theorem getLsbD_polyMod (p : List Bool) {k : Nat} (hk : k < 32) :
    (polyMod p).getLsbD k = (p.foldl rawDivideStep 0#32).getLsbD (31 - k) := by
  rw [polyMod_eq, getLsbD_reverse_word _ hk]

/-- A step of division is linear. -/
theorem rawDivideStep_xor (r r' : Word) (c c' : Bool) :
    rawDivideStep (r ^^^ r') (Bool.xor c c') = rawDivideStep r c ^^^ rawDivideStep r' c' := by
  have htop : topBit (Bool.xor c c') = topBit c ^^^ topBit c' := by
    cases c <;> cases c' <;> decide
  rw [rawDivideStep, rawDivideStep, rawDivideStep, bitstep_xor, htop, ← BitVec.xor_assoc,
    ← BitVec.xor_assoc, word_xor_right_comm (bitstep r)]

/-- Division is linear in the register and in a polynomial written with as many coefficients. -/
theorem foldl_rawDivideStep_polyAdd {p q : List Bool} (h : p.length = q.length) (r r' : Word) :
    (polyAdd p q).foldl rawDivideStep (r ^^^ r') =
      p.foldl rawDivideStep r ^^^ q.foldl rawDivideStep r' := by
  induction p generalizing q r r' with
  | nil =>
    cases q with
    | nil => rfl
    | cons c' q => cases h
  | cons c p ih =>
    cases q with
    | nil => cases h
    | cons c' q =>
      rw [List.foldl_cons, List.foldl_cons, ← ih (Nat.succ.inj h), ← rawDivideStep_xor]
      rfl

/-- Bringing down a zero is one shift. -/
theorem rawDivideStep_false (r : Word) : rawDivideStep r false = bitstep r := by
  rw [rawDivideStep, show topBit false = 0#32 by decide, BitVec.xor_zero]

/-- A factor x^k is k shifts (R87). -/
theorem foldl_rawDivideStep_timesPower (k : Nat) (p : List Bool) (r : Word) :
    (timesPower k p).foldl rawDivideStep r = bitsteps k (p.foldl rawDivideStep r) := by
  have hzeros (r : Word) : (List.replicate k false).foldl rawDivideStep r = bitsteps k r := by
    induction k generalizing r with
    | zero => rfl
    | succ k ih => rw [List.replicate_succ, List.foldl_cons, rawDivideStep_false, ih]; rfl
  rw [timesPower, List.foldl_append, hzeros]

/-- A register that holds the first `m` bits of `x` at its upper end takes in the next one. -/
theorem rawDivideStep_shiftLeft (x : Word) {m : Nat} (hm : m < 32) :
    rawDivideStep (x <<< (32 - m)) (x.getLsbD m) = x <<< (31 - m) := by
  have hlow : (x <<< (32 - m)).getLsbD 0 = false := by
    rw [BitVec.getLsbD_shiftLeft, decide_eq_true (show 0 < 32 - m by omega)]
    simp
  apply BitVec.eq_of_getLsbD_eq
  intro j hj
  rw [rawDivideStep, bitstep_of_low_clear hlow, BitVec.getLsbD_xor, BitVec.getLsbD_ushiftRight,
    getLsbD_topBit _ hj, BitVec.getLsbD_shiftLeft, BitVec.getLsbD_shiftLeft]
  by_cases htop : j = 31
  · subst htop
    have hsub : 31 - (31 - m) = m := by omega
    simp [hsub]
  · have hlt : decide (1 + j < 32 - m) = decide (j < 31 - m) := decide_eq_decide.mpr (by omega)
    have hsub : 1 + j - (32 - m) = j - (31 - m) := by omega
    have hj' : 1 + j < 32 := by omega
    simp [hlt, hsub, hj', hj, htop]

/-- The first `m` bits of a word, taken in from 0, stand at the upper end: none of them has come down to bit
0, so nothing is subtracted. -/
theorem foldl_rawDivideStep_bits (x : Word) {m : Nat} (hm : m ≤ 32) :
    ((List.range m).map x.getLsbD).foldl rawDivideStep 0#32 = x <<< (32 - m) := by
  induction m with
  | zero => exact (BitVec.shiftLeft_eq_zero (Nat.le_refl 32)).symm
  | succ m ih =>
    rw [List.range_succ, List.map_append, List.foldl_append, ih (by omega)]
    exact (rawDivideStep_shiftLeft x hm).trans (congrArg (x <<< ·) (by omega))

/-- `poly(r)` has a degree below that of `P(x)`: its remainder is `r`. -/
theorem foldl_rawDivideStep_polyOfRaw (r : Word) :
    (polyOfRaw r).foldl rawDivideStep 0#32 = r :=
  (foldl_rawDivideStep_bits r (Nat.le_refl 32)).trans (BitVec.shiftLeft_zero r)

/-- The eight bits of a byte, taken in from 0, stand at the upper end. -/
theorem foldl_rawDivideStep_polyOfByte (b : Byte) :
    (polyOfByte b).foldl rawDivideStep 0#32 = zext32 b <<< 24 := by
  have hbits : polyOfByte b = (List.range 8).map (zext32 b).getLsbD := by
    refine List.map_congr_left fun k hk => ?_
    rw [getLsbD_zext32, decide_eq_true (List.mem_range.mp hk), Bool.true_and]
  rw [hbits, foldl_rawDivideStep_bits (zext32 b) (by decide)]

/-- Taking in a byte is eight shifts and the byte at the upper end. -/
theorem foldl_rawDivideStep_byte (r : Word) (b : Byte) :
    (polyOfByte b).foldl rawDivideStep r = bitsteps 8 r ^^^ zext32 b <<< 24 := by
  have hsum : polyAdd (timesPower 8 []) (polyOfByte b) = polyOfByte b := by
    simp [polyAdd, timesPower, polyOfByte, List.range_succ]
  have h := foldl_rawDivideStep_polyAdd (p := timesPower 8 []) (q := polyOfByte b) rfl r 0#32
  rwa [hsum, foldl_rawDivideStep_timesPower, foldl_rawDivideStep_polyOfByte, BitVec.xor_zero] at h

/-- Behind the 32 shifts of the factor x^32, taking in a byte is absorbing it. -/
theorem bitsteps_foldl_polyOfByte (r : Word) (b : Byte) :
    bitsteps 32 ((polyOfByte b).foldl rawDivideStep r) = bytestep (bitsteps 32 r) b := by
  have hbyte : bitsteps 32 (zext32 b <<< 24) = bitsteps 8 (zext32 b) := by
    rw [bitsteps_add 24 8, bitsteps_zext32_shiftLeft b (by decide)]
  rw [foldl_rawDivideStep_byte, bitsteps_xor, hbyte, bytestep_eq_bitsteps, bitsteps_xor 8,
    ← bitsteps_add 8 32, ← bitsteps_add 32 8]

/-- Behind the 32 shifts of the factor x^32, taking in a chunk is absorbing it. -/
theorem bitsteps_foldl_polyOfChunk (r : Word) (c : Chunk) :
    bitsteps 32 ((polyOfChunk c).foldl rawDivideStep r) = c.foldl bytestep (bitsteps 32 r) := by
  induction c generalizing r with
  | nil => rfl
  | cons b c ih =>
    rw [polyOfChunk, List.flatMap_cons, List.foldl_append, ← polyOfChunk, ih,
      bitsteps_foldl_polyOfByte, List.foldl_cons]

/-- A chunk has eight coefficients a byte. -/
theorem polyOfChunk_length (c : Chunk) : (polyOfChunk c).length = 8 * c.length := by
  induction c with
  | nil => rfl
  | cons b c ih =>
    rw [polyOfChunk, List.flatMap_cons, List.length_append, ← polyOfChunk, ih, List.length_cons,
      Nat.mul_succ, Nat.add_comm]
    rfl

/-- The raw register behind a chunk is the remainder of `x^(8n) poly(RAW) + x^32 M_c` (R87). -/
theorem foldl_rawDivideStep_dividend (raw : Word) (c : Chunk) :
    (dividend raw c).foldl rawDivideStep 0#32 = c.foldl bytestep raw := by
  have hlength : (timesPower (8 * c.length) (polyOfRaw raw)).length =
      (timesPower 32 (polyOfChunk c)).length := by
    simp [timesPower, polyOfRaw, polyOfChunk_length, Nat.add_comm]
  have hsplit := foldl_rawDivideStep_polyAdd hlength 0#32 0#32
  rw [BitVec.xor_self] at hsplit
  rw [dividend, hsplit, foldl_rawDivideStep_timesPower, foldl_rawDivideStep_timesPower,
    foldl_rawDivideStep_polyOfRaw, bitsteps_foldl_polyOfChunk, foldl_bytestep_eq raw,
    bitsteps_eq_zero_iff.mpr rfl]
  rfl

/-- Settles O33: the identity for a chunk, which for one byte is the byte's; one shift is a factor x. -/
theorem rawIsAPolynomialRemainder : Obligations.RawIsAPolynomialRemainder := by
  refine ⟨by decide, by decide, fun r k hk => ?_, fun r b k hk => ?_, fun raw c k hk => ?_,
    fun c => update_eq 0x00000000#32 c⟩
  · rw [getLsbD_polyMod _ hk, foldl_rawDivideStep_timesPower, foldl_rawDivideStep_polyOfRaw]
    rfl
  · have hone : polyAdd (timesPower 8 (polyOfRaw r)) (timesPower 32 (polyOfByte b)) =
        dividend r [b] := by
      rw [dividend, polyOfChunk, List.flatMap_singleton, List.length_singleton]
    rw [hone, getLsbD_polyMod _ hk, foldl_rawDivideStep_dividend]
    rfl
  · rw [getLsbD_polyMod _ hk, foldl_rawDivideStep_dividend]

end Sys2Proof.Machine
end

section
/-! PROOFS. Implementations side by side (42_datapath_forms.md R80 to R82): a finished run is what it promised
at its start, and a `COMB` engine is a `PIPE` implementation that keeps nothing in flight. -/

namespace Sys2Proof.Machine

/-- In a finished state no response waits. -/
theorem responses_of_finished {s : State} (h : s.finished = true) : s.responses = [] :=
  List.isEmpty_iff.mp (Bool.and_eq_true_iff.mp h).2

/-- In a finished `PIPE` implementation nothing is in flight, and its engine is finished. -/
theorem pipe_finished_iff {p : Pipe} :
    p.finished = true ↔ p.toState.finished = true ∧ p.inFlight = [] := by
  simp [Pipe.finished]

/-- A state behind its last edge and its last response is what it comes to with no command to come. -/
theorem eq_of_comesTo {s t : State} (hs : s.responses = []) (ht : t.responses = [])
    (hse : s.edges = []) (hte : t.edges = []) (h : s.comesTo [] = t.comesTo []) : s = t := by
  rw [comesTo_nil, comesTo_nil, hs, ht, List.append_nil, List.append_nil] at h
  obtain ⟨hcrc, hdelivered⟩ := Prod.mk.inj h
  exact state_ext hcrc (hs.trans ht.symm) hdelivered (hse.trans hte.symm)

/-- A finished run of a `PIPE` implementation over all its edges, none a reset, has nothing in flight, waiting
or to come, and holds what the run promised. -/
theorem pipe_run_finished {p q : Pipe} {es : List Edge} (hf : resetFree es = true)
    (h : Pipe.run es.length (p.withEdges es) = .next q) (hq : q.finished = true) :
    q.inFlight = [] ∧ q.responses = [] ∧ q.edges = [] ∧
      q.toState.comesTo [] =
        p.toState.comesTo ((p.inFlight ++ acceptedWords es).map decode) := by
  obtain ⟨hs, hflight⟩ := pipe_finished_iff.mp hq
  have hedges : q.edges = [] := (pipe_run_edges h).trans List.drop_length
  obtain ⟨q', hq', hpromised⟩ := pipe_run_promised (p := p.withEdges es) hf es.length
  cases h.symm.trans hq'
  rw [promised_eq_comesTo, hflight, hedges] at hpromised
  exact ⟨hflight, responses_of_finished hs, hedges, hpromised⟩

/-- Settles O49: runs that accept the same words from the same state promise the same, and a finished state
is what was promised. -/
theorem implementationsAreBitIdentical : Obligations.ImplementationsAreBitIdentical := by
  refine ⟨fun p q q' es es' hf hf' hwords h h' hq hq' => ?_,
    fun s t q es es' hf hf' hwords h h' ht hq => ?_⟩
  · obtain ⟨hflight, hwait, hedges, hcomes⟩ := pipe_run_finished hf h hq
    obtain ⟨hflight', hwait', hedges', hcomes'⟩ := pipe_run_finished hf' h' hq'
    refine pipe_ext (eq_of_comesTo hwait hwait' hedges hedges' ?_) (hflight.trans hflight'.symm)
    rw [hcomes, hcomes', hwords]
  · obtain ⟨-, hwait, hedges, hcomes⟩ :=
      pipe_run_finished (p := { toState := s, inFlight := [] }) hf' h' hq
    obtain ⟨t', ht', hcomes'⟩ := run_comesTo (s := s.withEdges es) hf
    cases h.symm.trans ht'
    have hedges' : t.edges = [] := (run_edges h).trans List.drop_length
    refine eq_of_comesTo hwait (responses_of_finished ht) hedges hedges' ?_
    rw [hcomes, hcomes', List.nil_append, ← hwords]
    rfl

/-- At an edge whose `cmd_ready` wire is the engine's, the wires show what the engine accepts. -/
theorem edge_accepts_of_ready {s : State} {e : Edge} (h : e.ready = s.cmdReady e) :
    e.accepts = s.accepts e := by
  rw [Edge.accepts, h, State.accepts]

/-- A `PIPE` implementation with nothing in flight that advances and shows the engine's `cmd_ready` makes the
engine's step, and nothing is in flight afterwards: a word it accepts executes at once. -/
theorem pipe_step_eq_step {s t : State} {e : Edge} {later : List Edge} (he : s.edges = e :: later)
    (hadvance : e.advance = true) (hready : e.ready = s.cmdReady e) (h : step s = .next t) :
    Pipe.step { toState := s, inFlight := [] } = .next { toState := t, inFlight := [] } := by
  have hpe : ({ toState := s, inFlight := [] } : Pipe).edges = e :: later := he
  have hwords := edge_accepts_of_ready hready
  cases hr : e.rst with
  | true =>
    cases (step_reset_edge he hr).symm.trans h
    exact pipe_step_reset_edge hpe hr
  | false =>
    cases ha : s.accepts e with
    | false =>
      cases (step_accepts_none he hr ha).symm.trans h
      have hnone := acceptedWords_of_not_accepts (hwords.trans ha)
      have hn := nextCommand_eq_none (e := e)
        (p := (({ toState := s, inFlight := [] } : Pipe).withEdges later).handshakes e)
        |>.mpr (.inr (.inr hnone))
      rw [pipe_step_executes_none hpe hr hn]
      exact congrArg _ (pipe_ext rfl hnone)
    | true =>
      obtain ⟨-, -, hcmd⟩ := (accepts_eq_true s e).mp ha
      obtain ⟨-, hwait⟩ := (cmdReady_eq_true s e).mp hcmd
      have hone := acceptedWords_of_accepts (hwords.trans ha)
      have hn := nextCommand_eq_some
        (p := (({ toState := s, inFlight := [] } : Pipe).withEdges later).handshakes e)
        |>.mpr ⟨hadvance, (deliver_responses _ e).trans hwait, hone⟩
      rw [pipe_step_executes hpe hr hn]
      exact pipe_execute_eq ((step_executes he ha).symm.trans h)

/-- Settles O51: with no response waiting `cmd_ready` is the engine's willingness; an accepted command is
executed by the step, which is the engine's whether or not it is written as a `PIPE` implementation. -/
theorem combinationalTakesOneEdge : Obligations.CombinationalTakesOneEdge := by
  refine ⟨fun s e hcomb hs => ?_, fun s e later he ha => ?_, fun s e later he hadvance hready => ?_⟩
  · have hready : e.ready = true := by simpa [Edge.conforms, hs] using hcomb
    have hwait : s.stillWaiting e = [] := by
      rw [← deliver_responses, deliver_eq_self (.inr hs), hs]
    exact (cmdReady_eq_true s e).mpr ⟨hready, hwait⟩
  · obtain ⟨t, ht⟩ := exec_next (decode e.command) ((s.withEdges later).deliver e)
    refine ⟨t, (step_executes he ha).trans ht, ?_⟩
    obtain ⟨hengine, -⟩ := engine_step_of_exec ht
    rw [hengine, Engine.step, deliver_crc]
    rfl
  · obtain ⟨t, ht⟩ := step_next s
    exact ⟨t, ht, pipe_step_eq_step he hadvance hready ht⟩

end Sys2Proof.Machine
end

section
/-! PROOFS. Saving and restoring (60_exceptions.md R101): `READ` leaves `CRC`, and behind a `LOAD` what `CRC`
held before it is forgotten. -/

namespace Sys2Proof.Machine

/-- A `LOAD` anywhere in a sequence: the commands behind it go on from its operand, and those before it leave
nothing but their responses. -/
theorem transactAll_append_load (crc v : Word) (before after : List Instr) :
    transactAll crc (before ++ .load v :: after) =
      ((transactAll v after).1, (transactAll crc before).2 ++ (transactAll v after).2) := by
  rw [transactAll_append, transactAll_load]

/-- Settles O26: the `LOAD` puts back the value that `READ` answered, from which `after` goes on as it does
straight behind `before`. -/
theorem saveAndRestoreResumes : Obligations.SaveAndRestoreResumes := by
  intro crc before other after
  rw [transactAll_append_read]
  refine ⟨?_, ?_⟩
  · rw [← List.append_assoc, transactAll_append_load, transactAll_append crc before after]
  · rw [transactAll_append_load]

end Sys2Proof.Machine
end

section
/-! PROOFS. Why nothing is accepted and what coincides (60_exceptions.md R90, R93): with at most one response
waiting, one stays at an edge exactly if there is one and the host withholds `rsp_ready`. -/

namespace Sys2Proof.Machine

/-- With at most one response waiting, one stays at an edge exactly if the host does not take it. -/
theorem stillWaiting_ne_nil {s : State} {e : Edge} (hw : OneResponseWaits s) :
    s.stillWaiting e ≠ [] ↔ s.responses ≠ [] ∧ e.rspReady = false := by
  rw [← deliver_responses]
  cases hr : e.rspReady with
  | true => simp [deliver_of_oneResponseWaits hw hr]
  | false => simp [deliver_eq_self (s := s) (.inl hr)]

/-- At an edge with `rst = 0` and at most one response waiting, a command offered to a willing engine is
accepted unless a response waits that the host does not take. -/
theorem accepts_of_willing {s : State} {e : Edge} (hw : OneResponseWaits s) (hrst : e.rst = false)
    (hvalid : e.cmdValid = true) (hready : e.ready = true)
    (hr : ¬ (s.responses ≠ [] ∧ e.rspReady = false)) : s.accepts e = true :=
  (accepts_eq_true s e).mpr
    ⟨hrst, hvalid, (cmdReady_eq_true s e).mpr
      ⟨hready, not_imp_comm.mp (stillWaiting_ne_nil hw).mp hr⟩⟩

/-- Nothing is accepted at a reset edge. -/
theorem not_accepts_of_rst {s : State} {e : Edge} (hrst : e.rst = true) : s.accepts e = false := by
  simp [State.accepts, hrst]

/-- An edge that accepts no word shows no acceptance. -/
theorem not_accepts_of_acceptedWords {e : Edge} (h : acceptedWords [e] = []) : e.accepts = false := by
  cases ha : e.accepts with
  | false => rfl
  | true => simp [acceptedWords_of_accepts ha] at h

/-- A `PIPE` implementation that does not advance at an edge makes the two handshakes alone. -/
theorem pipe_step_of_not_advance {p : Pipe} {e : Edge} {later : List Edge} (he : p.edges = e :: later)
    (hrst : e.rst = false) (hadvance : e.advance = false) :
    p.step = .next ((p.withEdges later).handshakes e) :=
  pipe_step_executes_none he hrst (nextCommand_eq_none.mpr (.inl hadvance))

/-- Delivery writes the response port and the output record, acceptance the commands in flight. -/
theorem pipe_accept_deliver (p : Pipe) (e : Edge) : (p.deliver e).accept e = (p.accept e).deliver e :=
  pipe_ext rfl rfl

/-- Settles O43: a reset edge is the reset alone; without reset the response taken leaves the port empty, so
that the offered command is accepted, and in a `PIPE` implementation the handshakes write different
fields. -/
theorem coincidingEvents : Obligations.CoincidingEvents := by
  refine ⟨fun s t e later he hrst h => ?_, fun s e later v he hrst hvalid hready hr hs => ?_,
    fun p q e later he hrst h => ?_, pipe_accept_deliver,
    fun p q e later v waiting he hrst hvalid hready hr hadvance hs h => ?_⟩
  · cases (step_reset_edge he hrst).symm.trans h
    exact ⟨not_accepts_of_rst hrst, rfl, rfl, rfl⟩
  · have hw : OneResponseWaits (s.withEdges later) := by simp [OneResponseWaits, hs]
    have ha : s.accepts e = true := accepts_of_willing hw hrst hvalid hready (by simp [hr])
    rw [step_executes he ha, deliver_of_oneResponseWaits hw hr, withEdges_responses, hs]
    rfl
  · cases (pipe_step_reset_edge he hrst).symm.trans h
    exact ⟨rfl, rfl⟩
  · refine ⟨by rw [pipe_step_delivered he hrst h, taken_of_ready hs hr], ?_⟩
    have ha : e.accepts = true := edge_accepts_eq_true.mpr ⟨hrst, hvalid, hready⟩
    cases (pipe_step_of_not_advance he hrst hadvance).symm.trans h
    rw [pipe_handshakes_inFlight, pipe_withEdges_inFlight, acceptedWords_of_accepts ha]

/-- Every run answers a next state. -/
theorem run_next (n : Nat) (s : State) : ∃ t, run n s = .next t := by
  obtain ⟨t, ht, -⟩ := run_keeps (P := fun _ => True) (fun _ _ _ _ => trivial) n (s := s) trivial
  exact ⟨t, ht⟩

/-- Every run of a `PIPE` implementation answers a next state. -/
theorem pipe_run_next (n : Nat) (p : Pipe) : ∃ q, Pipe.run n p = .next q := by
  obtain ⟨q, hq, -⟩ :=
    pipe_run_keeps (P := fun _ => True) (fun _ _ _ _ => trivial) n (p := p) trivial
  exact ⟨q, hq⟩

/-- Settles O55: commands, steps and runs answer a next state; an offered command is accepted, and one in
flight or accepted executes, unless a response stays. -/
theorem nothingFaults : Obligations.NothingFaults := by
  refine ⟨nofun, exec_next, step_next, run_next, pipe_run_next,
    fun s e hw hrst hready ha => ?_, fun p e later hw _ _ hadvance hn => ?_⟩
  · by_contra hnot
    obtain ⟨hvalid, hr⟩ := not_or.mp hnot
    have ha' := accepts_of_willing hw hrst (Bool.eq_true_of_not_eq_false hvalid) hready hr
    exact absurd (ha.symm.trans ha') Bool.false_ne_true
  · obtain hstop | hwait | hempty := nextCommand_eq_none.mp hn
    · exact absurd (hstop.symm.trans hadvance) Bool.false_ne_true
    · rw [pipe_handshakes_toState, deliver_responses] at hwait
      exact .inr ((stillWaiting_ne_nil (s := p.toState.withEdges later) hw).mp hwait)
    · obtain ⟨hflight, hnone⟩ := List.append_eq_nil_iff.mp hempty
      exact .inl ⟨hflight, not_accepts_of_acceptedWords hnone⟩

end Sys2Proof.Machine
end

section
/-! PROOFS. Several engines on a chip (60_exceptions.md R100): one edge of one engine is a run of one edge of
that engine and of none of every other, and runs one after the other add up. -/

namespace Sys2Proof.Machine

/-- A run in two parts. -/
theorem run_add {m : Nat} {s t : State} (h : run m s = .next t) (n : Nat) :
    run (m + n) s = run n t := by
  induction m generalizing s with
  | zero => cases h; rw [Nat.zero_add]
  | succ m ih =>
    obtain ⟨u, hu⟩ := step_next s
    rw [run_succ hu] at h
    rw [Nat.add_right_comm, run_succ hu, ih h]

/-- In `d` each engine of `c` is where the edges that `order` gives it, and they alone, take it. -/
def Chip.TakenTo (c : Chip) (order : List Nat) (d : Chip) : Prop :=
  d.length = c.length ∧
    ∀ k s, getElem? c k = some s → ∃ t, getElem? d k = some t ∧
      Sys2Proof.Machine.run (order.count k) s = .next t

/-- Without edges no engine goes anywhere. -/
theorem takenTo_nil (c : Chip) : c.TakenTo [] c :=
  ⟨rfl, fun _ s h => ⟨s, h, rfl⟩⟩

/-- The edges of an engine in two orders, one after the other, add up. -/
theorem takenTo_append {c d d' : Chip} {order order' : List Nat} (h : c.TakenTo order d)
    (h' : d.TakenTo order' d') : c.TakenTo (order ++ order') d' := by
  obtain ⟨hlength, hinstances⟩ := h
  obtain ⟨hlength', hinstances'⟩ := h'
  refine ⟨hlength'.trans hlength, fun k s hs => ?_⟩
  obtain ⟨t, ht, hrun⟩ := hinstances k s hs
  obtain ⟨u, hu, hrun'⟩ := hinstances' k t ht
  exact ⟨u, hu, by rw [List.count_append, run_add hrun, hrun']⟩

/-- Everything one edge of engine `j` can do: nothing on a chip without that engine, a step of it on any
other. -/
theorem stepInstance_cases (c : Chip) (j : Nat) :
    (getElem? c j = none ∧ c.stepInstance j = .next c) ∨
      ∃ s t, getElem? c j = some s ∧ step s = .next t ∧ c.stepInstance j = .next (c.set j t) := by
  cases hs : getElem? c j with
  | none => exact .inl ⟨rfl, by simp only [Chip.stepInstance, hs]⟩
  | some s =>
    obtain ⟨t, ht⟩ := step_next s
    exact .inr ⟨s, t, rfl, ht, by simp only [Chip.stepInstance, hs, ht]⟩

/-- An edge of engine `j` takes that engine one step on, if there is one, and no other anywhere. -/
theorem stepInstance_takenTo (c : Chip) (j : Nat) :
    ∃ d, c.stepInstance j = .next d ∧ c.TakenTo [j] d := by
  obtain ⟨hnone, h⟩ | ⟨s, t, hs, ht, h⟩ := stepInstance_cases c j
  · refine ⟨c, h, rfl, fun k u hu => ⟨u, hu, ?_⟩⟩
    have hk : j ≠ k := by rintro rfl; simp [hnone] at hu
    rw [List.count_cons_of_ne hk]
    rfl
  · refine ⟨_, h, List.length_set, fun k u hu => ?_⟩
    by_cases hk : j = k
    · subst hk
      cases hs.symm.trans hu
      obtain ⟨hj, -⟩ := List.getElem?_eq_some_iff.mp hs
      exact ⟨t, List.getElem?_set_self hj, by rw [List.count_singleton_self, run_succ ht]; rfl⟩
    · exact ⟨u, (List.getElem?_set_ne hk).trans hu, by rw [List.count_cons_of_ne hk]; rfl⟩

/-- A chip's run whose first step is known. -/
theorem chip_run_cons {c d : Chip} {k : Nat} (h : c.stepInstance k = .next d) (order : List Nat) :
    c.run (k :: order) = d.run order := by
  simp only [Chip.run, h]

/-- Whatever the interleaving, a chip's run takes each engine where its own edges take it. -/
theorem chip_run_takenTo (c : Chip) (order : List Nat) :
    ∃ d, c.run order = .next d ∧ c.TakenTo order d := by
  induction order generalizing c with
  | nil => exact ⟨c, rfl, takenTo_nil c⟩
  | cons j order ih =>
    obtain ⟨d, hd, hstep⟩ := stepInstance_takenTo c j
    obtain ⟨d', hd', hrest⟩ := ih d
    exact ⟨d', (chip_run_cons hd order).trans hd', takenTo_append hstep hrest⟩

/-- Settles O60: a chip right after reset is copies of the reset state, and its run takes each engine along
its own edges alone. -/
theorem instancesAreIndependent : Obligations.InstancesAreIndependent := by
  refine ⟨fun cfg => ⟨List.length_replicate, fun s hs => ?_⟩, chip_run_takenTo⟩
  rw [List.eq_of_mem_replicate hs]
  rfl

end Sys2Proof.Machine
end

section
/-! PROOFS. Items (70_reset_and_hazards.md R109): a `READ` behind an item answers its update, and the commands
behind it go on from there unless an `INIT` comes first. -/

namespace Sys2Proof.Machine

/-- A `READ` behind update commands answers the `update` with their bytes, from which the commands behind it
go on. -/
theorem transactAll_item_read {item : List Instr} (h : ∀ i ∈ item, isUpdate i = true) (crc : Word)
    (after : List Instr) :
    transactAll crc (item ++ .read :: after) =
      ((transactAll (update crc (item.flatMap chunkOf)) after).1,
        update crc (item.flatMap chunkOf) ::
          (transactAll (update crc (item.flatMap chunkOf)) after).2) := by
  rw [transactAll_append, transactAll_of_isUpdate h]
  rfl

/-- An `INIT` forgets what `CRC` held and answers nothing. -/
theorem transactAll_init (crc : Word) (after : List Instr) :
    transactAll crc (.init :: after) = transactAll 0x00000000#32 after := rfl

/-- Settles O25: the second item goes on from the first one's checksum, or behind the `INIT` from 0. -/
theorem itemsNeedAnInit : Obligations.ItemsNeedAnInit := by
  refine ⟨fun first second h => ?_, fun first second h => ?_, by decide +kernel, by decide⟩ <;>
    obtain ⟨hfirst, hsecond⟩ := List.forall_mem_append.mp h
  · rw [transactAll_item_read hfirst, transactAll_item_read hsecond, update_update]
    rfl
  · rw [transactAll_item_read hfirst, transactAll_init, transactAll_item_read hsecond]
    rfl

end Sys2Proof.Machine
end

section
/-! PROOFS. Bounded progress (70_reset_and_hazards.md R112, R114): commands offered at consecutive edges
complete, and what is in flight drains one command an edge. -/

namespace Sys2Proof.Machine

/-- Settles O52: `offerAll` is one edge for each command and one more, over which `run_offerAll` runs. -/
theorem backToBackCommandsComplete : Obligations.BackToBackCommandsComplete := by
  intro s commands hs he
  have hw : OneResponseWaits s := by simp [OneResponseWaits, hs]
  have hlength : s.edges.length = commands.length + 1 := by simp [he, offerAll]
  rw [← hlength, run_offerAll hw he, hs, List.append_nil]

section Drain

variable {p : Pipe} {later : List Edge}

/-- At an edge that offers nothing and takes the waiting response, the two handshakes are the delivery. -/
theorem handshakes_execute (hw : OneResponseWaits p.toState) :
    (p.withEdges later).handshakes Edge.execute =
      { p with responses := [], delivered := p.delivered ++ p.responses, edges := later } := by
  have hnone : acceptedWords [Edge.execute] = [] := rfl
  refine pipe_ext (deliver_of_oneResponseWaits (s := p.toState.withEdges later) hw rfl) ?_
  rw [pipe_handshakes_inFlight, hnone, List.append_nil]
  rfl

/-- Such an edge with nothing in flight: the waiting response is delivered. -/
theorem pipe_step_execute_none (hw : OneResponseWaits p.toState)
    (he : p.edges = Edge.execute :: later) (hflight : p.inFlight = []) :
    p.step = .next
      { p with responses := [], delivered := p.delivered ++ p.responses, edges := later } := by
  have hn : ((p.withEdges later).handshakes Edge.execute).nextCommand Edge.execute = none := by
    rw [handshakes_execute hw]
    exact nextCommand_eq_none.mpr (.inr (.inr hflight))
  rw [pipe_step_executes_none he rfl hn, handshakes_execute hw]

/-- Such an edge with a command in flight: the waiting response is delivered, the oldest command executes, and
its own response is all that waits. -/
theorem pipe_step_execute_oldest {w : CommandWord} {ws : List CommandWord}
    (hw : OneResponseWaits p.toState) (he : p.edges = Edge.execute :: later)
    (hflight : p.inFlight = w :: ws) :
    p.step = .next
      { crc := (transact p.crc (decode w)).1, responses := (transact p.crc (decode w)).2.toList,
        delivered := p.delivered ++ p.responses, edges := later, inFlight := ws } := by
  have hn : ((p.withEdges later).handshakes Edge.execute).nextCommand Edge.execute =
      some (w, ws) := by
    rw [handshakes_execute hw]
    exact nextCommand_eq_some.mpr ⟨rfl, rfl, hflight⟩
  rw [pipe_step_executes he rfl hn, handshakes_execute hw]
  exact pipe_execute_eq (exec_eq_transact _ _)

end Drain

/-- Settles O53, by induction on the commands in flight: one edge executes the oldest, and the last edge
delivers the last response. -/
theorem engineDrains : Obligations.EngineDrains := by
  intro p hw he
  generalize hflight : p.inFlight = ws at he ⊢
  induction ws generalizing p with
  | nil =>
    rw [List.length_nil, pipe_run_succ (pipe_step_execute_none hw he hflight)]
    simp [Pipe.run, Pipe.finalCrc, Pipe.allResponses, hflight, transactAll]
  | cons w ws ih =>
    have hw' : OneResponseWaits
        { crc := (transact p.crc (decode w)).1, responses := (transact p.crc (decode w)).2.toList,
          delivered := p.delivered ++ p.responses,
          edges := List.replicate (ws.length + 1) Edge.execute } :=
      Option.length_toList_le
    rw [List.length_cons, pipe_run_succ (pipe_step_execute_oldest hw he hflight)]
    refine (ih _ hw' rfl rfl).trans ?_
    simp [Pipe.finalCrc, Pipe.allResponses, hflight, transactAll]

end Sys2Proof.Machine
end

section
/-! PROOFS. The end of a run (70_reset_and_hazards.md R114): a run that has ended only uses up its edges. -/

namespace Sys2Proof.Machine

/-- A run has ended exactly if nothing is offered at any edge to come and no response waits. -/
theorem finished_iff {s : State} :
    s.finished = true ↔ (∀ e ∈ s.edges, e.cmdValid = false) ∧ s.responses = [] := by
  simp [State.finished]

/-- A run that has ended has ended for any part of its edges. -/
theorem finished_withEdges {s : State} {es : List Edge} (h : s.finished = true)
    (hes : es ⊆ s.edges) : (s.withEdges es).finished = true := by
  obtain ⟨hedges, hs⟩ := finished_iff.mp h
  exact finished_iff.mpr ⟨fun e he => hedges e (hes he), hs⟩

/-- A step of a run that has ended only uses up its edge. -/
theorem step_of_finished {s : State} (h : s.finished = true) (hf : resetFree s.edges = true) :
    step s = .next (s.withEdges s.edges.tail) := by
  obtain ⟨hedges, hs⟩ := finished_iff.mp h
  cases he : s.edges with
  | nil => rw [step_no_edge he, List.tail_nil, ← he]; rfl
  | cons e later =>
    rw [he] at hf hedges
    obtain ⟨hrst, -⟩ := resetFree_cons.mp hf
    obtain ⟨hvalid, -⟩ := List.forall_mem_cons.mp hedges
    have ha : s.accepts e = false := by simp [State.accepts, hvalid]
    rw [step_accepts_none he hrst ha, deliver_withEdges, deliver_eq_self (.inr hs), List.tail_cons]

/-- A step of a `PIPE` implementation whose run has ended only uses up its edge. -/
theorem pipe_step_of_finished {p : Pipe} (h : p.finished = true) (hf : resetFree p.edges = true) :
    p.step = .next (p.withEdges p.edges.tail) := by
  obtain ⟨hfinished, hflight⟩ := pipe_finished_iff.mp h
  obtain ⟨hedges, hs⟩ := finished_iff.mp hfinished
  cases he : p.edges with
  | nil => rw [pipe_step_no_edge he, List.tail_nil, ← he]; rfl
  | cons e later =>
    rw [he] at hf hedges
    obtain ⟨hrst, -⟩ := resetFree_cons.mp hf
    obtain ⟨hvalid, -⟩ := List.forall_mem_cons.mp hedges
    have hnone : acceptedWords [e] = [] :=
      acceptedWords_of_not_accepts (by simp [Edge.accepts, hvalid])
    have hh : (p.withEdges later).handshakes e = p.withEdges later := by
      refine pipe_ext (deliver_eq_self (.inr hs)) ?_
      rw [pipe_handshakes_inFlight, hnone, List.append_nil]
    have hn : ((p.withEdges later).handshakes e).nextCommand e = none := by
      rw [hh]
      exact nextCommand_eq_none.mpr (.inr (.inr hflight))
    rw [pipe_step_executes_none he hrst hn, hh, List.tail_cons]

/-- A run that has ended only uses up its edges. -/
theorem run_of_finished (n : Nat) {s : State} (h : s.finished = true)
    (hf : resetFree s.edges = true) : run n s = .next (s.withEdges (s.edges.drop n)) := by
  induction n generalizing s with
  | zero => rfl
  | succ n ih =>
    rw [run_succ (step_of_finished h hf),
      ih (finished_withEdges h (List.tail_subset _)) (resetFree_tail hf), withEdges_edges,
      List.drop_tail]
    rfl

/-- A run of a `PIPE` implementation that has ended only uses up its edges. -/
theorem pipe_run_of_finished (n : Nat) {p : Pipe} (h : p.finished = true)
    (hf : resetFree p.edges = true) : Pipe.run n p = .next (p.withEdges (p.edges.drop n)) := by
  induction n generalizing p with
  | zero => rfl
  | succ n ih =>
    obtain ⟨hs, hflight⟩ := pipe_finished_iff.mp h
    have htail : (p.withEdges p.edges.tail).finished = true :=
      pipe_finished_iff.mpr ⟨finished_withEdges hs (List.tail_subset _), hflight⟩
    rw [pipe_run_succ (pipe_step_of_finished h hf), ih htail (resetFree_tail hf),
      pipe_withEdges_toState, withEdges_edges, List.drop_tail]
    rfl

/-- Settles O56: such a run changes nothing but the edges to come, which are still edges at which nothing is
offered. -/
theorem endedRunStaysEnded : Obligations.EndedRunStaysEnded := by
  refine ⟨fun n s h hf => ?_, fun n p h hf => ?_⟩
  · exact ⟨_, run_of_finished n h hf, finished_withEdges h (List.drop_subset n _), rfl, rfl, rfl⟩
  · obtain ⟨hs, hflight⟩ := pipe_finished_iff.mp h
    exact ⟨_, pipe_run_of_finished n h hf,
      pipe_finished_iff.mpr ⟨finished_withEdges hs (List.drop_subset n _), hflight⟩, rfl, rfl, rfl⟩

end Sys2Proof.Machine
end

section
/-! PROOFS. Reset at any edge (70_reset_and_hazards.md R104): it leaves `CRC` 0 and an empty response port,
and the next accepted command executes on that. -/

namespace Sys2Proof.Machine

/-- A run of one edge is one step. -/
theorem run_one (s : State) : run 1 s = step s := by
  obtain ⟨t, ht⟩ := step_next s
  rw [run_succ ht, ht]
  rfl

/-- Reset edges in a row leave what the last one leaves. -/
theorem run_resets {s : State} {resets later : List Edge} (hne : resets ≠ [])
    (hrst : ∀ e ∈ resets, e.rst = true) (he : s.edges = resets ++ later) :
    run resets.length s = .next (s.withEdges later).resetEngine := by
  induction resets generalizing s with
  | nil => exact absurd rfl hne
  | cons e resets ih =>
    obtain ⟨he0, hresets⟩ := List.forall_mem_cons.mp hrst
    rw [List.length_cons, run_succ (step_reset_edge he he0)]
    obtain rfl | hne' := eq_or_ne resets []
    · rfl
    · rw [ih hne' hresets rfl]
      rfl

/-- With no response waiting, a word offered to a willing engine is accepted and executes on the state as it
is. -/
theorem step_of_empty_port {s : State} {e : Edge} {later : List Edge} (he : s.edges = e :: later)
    (hs : s.responses = []) (ha : e.accepts = true) :
    step s = exec (decode e.command) (s.withEdges later) := by
  obtain ⟨hrst, hvalid, hready⟩ := edge_accepts_eq_true.mp ha
  have hw : OneResponseWaits s := by simp [OneResponseWaits, hs]
  rw [step_executes he (accepts_of_willing hw hrst hvalid hready (by simp [hs])),
    deliver_withEdges, deliver_eq_self (.inr hs)]

/-- Settles O44: one reset edge and any number of them leave `resetEngine`, on which the next accepted command
executes. -/
theorem resetAtAnyEdge : Obligations.ResetAtAnyEdge := by
  refine ⟨fun s e later he hrst => step_reset_edge he hrst,
    fun s resets later hne hrst he => run_resets hne hrst he,
    fun s e e' later he hrst ha => ?_, fun p e later he hrst => pipe_step_reset_edge he hrst⟩
  rw [run_succ (step_reset_edge he hrst), run_one, step_of_empty_port rfl rfl ha]
  rfl

end Sys2Proof.Machine
end

section
/-! PROOFS. What a reset discards (70_reset_and_hazards.md R106): up to it a run comes to what its accepted
commands come to, and of that it keeps the responses delivered. -/

namespace Sys2Proof.Machine

/-- A run over the first edges, none a reset, leaves the later ones and takes the commands it accepts from the
front of those to come. -/
theorem run_first_edges {s : State} {first rest : List Edge} (he : s.edges = first ++ rest)
    (hf : resetFree first = true) :
    ∃ t, run first.length s = .next t ∧ t.edges = rest ∧
      ∀ commands, t.comesTo commands = s.comesTo (commandSequence first.length s ++ commands) := by
  induction first generalizing s with
  | nil => exact ⟨s, rfl, he, fun _ => rfl⟩
  | cons e later ih =>
    obtain ⟨hr, hlater⟩ := resetFree_cons.mp hf
    obtain ⟨t, ht⟩ := step_next s
    have hte : t.edges = later ++ rest := by rw [step_edges ht, he]; rfl
    obtain ⟨u, hu, hrest, hcomes⟩ := ih hte hlater
    refine ⟨u, (run_succ ht _).trans hu, hrest, fun commands => ?_⟩
    rw [hcomes, step_comesTo he hr ht, commandSequence, commandSequence, List.length_cons,
      wires_succ _ he ht, acceptedWords_cons _ (wires _ t), List.map_append, List.append_assoc]

/-- What a `PIPE` implementation comes to by the commands in flight and then those that follow. -/
def Pipe.comesTo (p : Pipe) (commands : List Instr) : Word × List Word :=
  p.toState.comesTo (p.inFlight.map decode ++ commands)

/-- A step of a `PIPE` implementation without reset takes the command its edge accepts, if there is one, from
the front of those to come. -/
theorem pipe_step_comesTo {p q : Pipe} {e : Edge} {later : List Edge} (he : p.edges = e :: later)
    (hr : e.rst = false) (h : p.step = .next q) (commands : List Instr) :
    q.comesTo commands = p.comesTo ((acceptedWords [e]).map decode ++ commands) := by
  cases hn : ((p.withEdges later).handshakes e).nextCommand e with
  | none =>
    cases (pipe_step_executes_none he hr hn).symm.trans h
    simp [Pipe.comesTo, comesTo_deliver]
  | some c =>
    obtain ⟨-, -, hw⟩ := nextCommand_eq_some.mp hn
    obtain ⟨hq, hx⟩ := pipe_execute_cases ((pipe_step_executes he hr hn).symm.trans h)
    have hflight : decode c.1 :: q.inFlight.map decode =
        (p.inFlight ++ acceptedWords [e]).map decode := by
      rw [hq, ← List.map_cons]
      exact congrArg _ hw.symm
    rw [Pipe.comesTo, comesTo_of_exec hx, ← List.cons_append, hflight]
    simp [Pipe.comesTo, comesTo_deliver]

/-- A run of a `PIPE` implementation over the first edges, none a reset, leaves the later ones and takes the
commands these accept from the front of those to come. -/
theorem pipe_run_first_edges {p : Pipe} {first rest : List Edge} (he : p.edges = first ++ rest)
    (hf : resetFree first = true) :
    ∃ q, Pipe.run first.length p = .next q ∧ q.edges = rest ∧
      ∀ commands, q.comesTo commands = p.comesTo ((acceptedWords first).map decode ++ commands) := by
  induction first generalizing p with
  | nil => exact ⟨p, rfl, he, fun _ => rfl⟩
  | cons e later ih =>
    obtain ⟨hr, hlater⟩ := resetFree_cons.mp hf
    obtain ⟨q, hq⟩ := pipe_step_next p
    have hqe : q.edges = later ++ rest := by rw [pipe_step_edges hq, he]; rfl
    obtain ⟨u, hu, hrest, hcomes⟩ := ih hqe hlater
    refine ⟨u, (pipe_run_succ hq _).trans hu, hrest, fun commands => ?_⟩
    rw [hcomes, pipe_step_comesTo he hr hq, acceptedWords_cons e later, List.map_append,
      List.append_assoc]

/-- A run of a `PIPE` implementation, and one step more. -/
theorem pipe_run_last {n : Nat} {p q : Pipe} (h : Pipe.run n p = .next q) :
    Pipe.run (n + 1) p = q.step := by
  induction n generalizing p with
  | zero =>
    cases h
    obtain ⟨u, hu⟩ := pipe_step_next _
    rw [pipe_run_succ hu, hu]
    rfl
  | succ n ih =>
    obtain ⟨u, hu⟩ := pipe_step_next p
    rw [pipe_run_succ hu] at h ⊢
    exact ih h

/-- Settles O50: just before the reset, what is delivered, what waits and what is in flight make up the responses
owed, and the reset keeps the delivered ones. -/
theorem resetLosesOnlyASuffix : Obligations.ResetLosesOnlyASuffix := by
  refine ⟨fun s before e after he hf hrst => ?_, fun p before e after he hf hrst => ?_⟩
  · obtain ⟨u, hu, hue, hcomes⟩ := run_first_edges he hf
    have howed := hcomes []
    rw [comesTo_nil, List.append_nil] at howed
    refine ⟨u, (u.withEdges after).resetEngine, hu, ?_, rfl, congrArg Prod.snd howed, rfl, rfl, rfl⟩
    rw [run_add hu, run_one, step_reset_edge hue hrst]
  · obtain ⟨u, hu, hue, hcomes⟩ := pipe_run_first_edges he hf
    have howed := congrArg Prod.snd (hcomes [])
    rw [Pipe.comesTo, Pipe.comesTo, List.append_nil, List.append_nil, ← List.map_append] at howed
    refine ⟨u, (u.withEdges after).resetEngine, hu,
      (pipe_run_last hu).trans (pipe_step_reset_edge hue hrst), rfl, ?_, rfl, rfl, rfl, rfl⟩
    rw [← List.append_assoc]
    exact howed

end Sys2Proof.Machine
end
